-- ==== Sys2Proof/Word.lean ====
section
/-! DEFINITION. The words of the block: a byte, and a pixel of four bytes (00_scope.md R8, R9). -/

namespace Sys2Proof

/-- A byte: 8 bits, bit 7 the most significant (R8). A channel value `u8` is one byte. -/
abbrev Byte := BitVec 8

/-- A pixel: four unsigned 8-bit channels, red, green, blue, alpha (R9). Two pixels are equal when
all four channels are. -/
structure Pixel where
  r : Byte
  g : Byte
  b : Byte
  a : Byte
deriving DecidableEq, Repr

end Sys2Proof
end

