-- ==== Sys2Proof/Machine/ColorCache.lean ====
section
/-! DEFINITION. color_cache_controller (41_color_cache.md): the 64-slot register file and its operations
hash, get, insert, init. -/

namespace Sys2Proof.Machine

/-- A slot number, 0 .. 63 (10_state.md R22). -/
abbrev Slot := Fin 64

/-- `CACHE`: exactly 64 pixel slots (10_state.md R22). -/
abbrev ColorCache := Vector Pixel 64

/-- `PIXEL_DEFAULT` (00_scope.md R6). -/
def pixelDefault : Pixel := ⟨0, 0, 0, 0⟩

/-- `PREV_INIT` (00_scope.md R6, 10_state.md R20). -/
def prevInit : Pixel := ⟨0, 0, 0, 255⟩

/-- The sum under the hash, on integers that never wrap (41_color_cache.md R130). -/
def hashSum (p : Pixel) : Nat := 3 * p.r.toNat + 5 * p.g.toNat + 7 * p.b.toNat + 11 * p.a.toNat

/-- `hash(P)` of R130. -/
def pixelHash (p : Pixel) : Slot := ⟨hashSum p % 64, Nat.mod_lt _ (by decide)⟩

/-- `get(index)` of R132: reads one slot, no effect. -/
def cacheGet (cache : ColorCache) (i : Slot) : Pixel := cache[i]

/-- `insert(P)` of R133: overwrites slot `hash(P)`, whatever it holds. -/
def cacheInsert (cache : ColorCache) (p : Pixel) : ColorCache := cache.set (pixelHash p) p

/-- `init` of R135: every slot the default pixel, then `insert(PREV_INIT)`. -/
def cacheInit : ColorCache := cacheInsert (Vector.replicate 64 pixelDefault) prevInit

end Sys2Proof.Machine
end

