-- ==== Sys2Proof/Machine/State.lean ====
section
/-! DEFINITION. The state of the block (10_state.md), its phases and errors, the host's moves, the ways a
step can stop, and the state after reset. -/

namespace Sys2Proof.Machine

/-- `PHASE` (10_state.md R32). -/
inductive Phase
  | idle | header | body | done | error
deriving DecidableEq, Repr

/-- The errors of 60_exceptions.md R221, codes 1 to 8, with what each records (R222 to R229). -/
inductive DecodeError
  /-- Code 1: the input is shorter than 22 bytes (R222). -/
  | tooShort (found : Nat)
  /-- Code 2: the first four bytes are not the magic (R223). -/
  | badMagic (found : Nat)
  /-- Code 3: the last eight bytes are not the trailer (R224). -/
  | badTrailer (found : Nat)
  /-- Code 4: byte 12 is neither 3 nor 4 (R225). -/
  | badChannels (found : Byte)
  /-- Code 5: byte 13 is neither 0 nor 1 (R226). -/
  | badColorspace (found : Byte)
  /-- Code 6: a token of `len` bytes with `left` body bytes from its tag on (R227). -/
  | truncated (len left : Nat)
  /-- Code 7: the pixel count is not the declared one (R228). -/
  | sizeMismatch (expected found : Nat)
  /-- Code 8: more pixels than `MAX_PIXELS` (R229). -/
  | capacity (limit found : Nat)
deriving DecidableEq, Repr

/-- What the host does between two steps of the block (60_exceptions.md R241, 70_reset_and_hazards.md R260,
R263 to R265). DESIGN CHOICE, log entry 1: the host is a list of such moves in the state. -/
inductive HostMove
  /-- Nothing: the block takes its own step. -/
  | wait
  /-- Write `bytes` into `IN` from address `addr` up (R263). -/
  | writeIn (addr : Nat) (bytes : List Byte)
  /-- `IN_LEN <- len` (R263). -/
  | setInLen (len : Nat)
  /-- START (R241). -/
  | start
  /-- Reset, possible in any phase (R260). -/
  | reset
deriving DecidableEq, Repr

/-- A byte memory: (address, byte) pairs, addresses strictly rising; an address that is not listed holds
no value that the model knows. -/
abbrev Memory := List Host.Cell

/-- The state of the block. -/
structure State where
  /-- `PREV`, the previous pixel (10_state.md R20). -/
  prev : Pixel
  /-- `CACHE`, the color cache (R22). -/
  cache : ColorCache
  /-- `CURSOR`, the body offset of the next tag (R24). -/
  cursor : Nat
  /-- `OUT_COUNT`, pixels emitted so far (R26). -/
  outCount : BitVec 64
  /-- `IN_LEN`, the number of valid input bytes (R27). -/
  inLen : Nat
  /-- `WIDTH` (R28). -/
  width : BitVec 32
  /-- `HEIGHT` (R28). -/
  height : BitVec 32
  /-- `CHANNELS` (R29). -/
  channels : BitVec 8
  /-- `COLORSPACE` (R29). -/
  colorspace : BitVec 8
  /-- `PIXEL_COUNT`, the declared pixel count (R30). -/
  pixelCount : BitVec 64
  /-- `BODY_LEN` (R31). -/
  bodyLen : Nat
  /-- `PHASE` (R32). -/
  phase : Phase
  /-- `ERR_CODE` (R33). -/
  errCode : BitVec 4
  /-- `ERR_EXPECTED` (R34). -/
  errExpected : BitVec 64
  /-- `ERR_FOUND` (R34). -/
  errFound : BitVec 64
  /-- `IN`, the input memory (R37). -/
  inMem : Memory
  /-- `OUT`, the output memory (R38). -/
  outMem : Memory
  /-- The MODEL'S own: the host's moves to come, head first (log entry 1). -/
  host : List HostMove
  /-- The MODEL'S own: how many resets this run has seen; it numbers the free values (log entry 5). -/
  resets : Nat
deriving DecidableEq, Repr

/-- Why a step stops. Both are safe: each is raised only in states that no run from reset reaches. -/
inductive Fault
  /-- Raised by `readIn` when a read of `n` bytes at input address `addr` is not inside `IN_LEN`: such an
  address does not exist (20_memory.md R50). Safe (log entry 12). -/
  | inputOutOfRange (addr n : Nat)
  /-- Raised by `blockStep` in phase BODY with `CURSOR > BODY_LEN`, where the spec enables no step
  (10_state.md R32, R42). Safe (log entry 13). -/
  | noStepEnabled
deriving DecidableEq, Repr

/-- What has no meaning in the spec. All are safe: the model stops. -/
inductive Refusal
  /-- Raised by `exec` for an instruction that has no meaning yet. Safe. -/
  | notModelled (mnemonic : String)
  /-- Raised by `hostStep` at a START while busy (93_implementation_defined.md U5). Safe (log entry 11). -/
  | startWhileBusy
  /-- Raised by `hostStep` at a write of `IN` or `IN_LEN` while busy (U4). Safe (log entry 11). -/
  | hostWriteWhileBusy
  /-- Raised by `hostStep` when the host offers more than `2^LEN_W - 1` input bytes (U11). Safe (log entry 7). -/
  | inputTooLong
  /-- Raised by `stepWith` for a build with `SIZE_MISMATCH_IS_ERROR` false (U1). Safe (log entry 9). -/
  | lenientSizeMismatch
deriving DecidableEq, Repr

/-- The state right after reset: the table of 10_state.md R41 (70_reset_and_hazards.md R260). `IN_LEN` is
unspecified there: DESIGN CHOICE 0, unsafe, log entry 3. `IN` and `OUT` are unspecified: nothing is listed, log
entry 4. -/
def State.reset : State where
  prev := prevInit
  cache := cacheInit
  cursor := 0
  outCount := 0
  inLen := 0
  width := 0
  height := 0
  channels := 0
  colorspace := 0
  pixelCount := 0
  bodyLen := 0
  phase := .idle
  errCode := 0
  errExpected := 0
  errFound := 0
  inMem := []
  outMem := []
  host := []
  resets := 0

end Sys2Proof.Machine
end

