-- ==== Sys2Proof/Machine/Flags.lean ====
section
/-! DEFINITION. The status levels (10_state.md R36). The block has no condition codes: no token sets a flag
that a later token tests, so there is nothing else to compute here. -/

namespace Sys2Proof.Machine

/-- The numeric value of a phase (10_state.md R32). -/
def Phase.code : Phase → BitVec 3
  | .idle => 0
  | .header => 1
  | .body => 2
  | .done => 3
  | .error => 4

/-- `busy` (R36). -/
def State.busy (s : State) : Bool := decide (s.phase = .header ∨ s.phase = .body)

/-- `done` (R36). -/
def State.done (s : State) : Bool := decide (s.phase = .done)

/-- `error` (R36). -/
def State.error (s : State) : Bool := decide (s.phase = .error)

end Sys2Proof.Machine
end

