-- ==== Sys2Proof/Machine/Operands.lean ====
section
/-! DEFINITION. What the operand fields of the tokens stand for (30_encoding.md R89 to R94) and the channel
addition of 45_differential_tokens.md. -/

namespace Sys2Proof.Machine

/-- `wrap8(v)`: `v mod 256` as a byte, for a negative `v` too (45_differential_tokens.md R190). -/
def wrap8 (v : Int) : Byte := BitVec.ofInt 8 v

/-- A channel plus a signed delta, modulo 256 (R190). -/
def addDelta (c : Byte) (d : Int) : Byte := wrap8 ((c.toNat : Int) + d)

/-- A DIFF field: 2 bits, biased by 2 (30_encoding.md R90). -/
def diffDelta (f : BitVec 2) : Int := (f.toNat : Int) - 2

/-- The LUMA green delta: 6 bits, biased by 32 (R91). -/
def lumaGreen (g : BitVec 6) : Int := (g.toNat : Int) - 32

/-- A LUMA red or blue delta: a nibble, biased by 8 and relative to the green delta (R91). -/
def lumaDelta (g : BitVec 6) (f : BitVec 4) : Int := lumaGreen g - 8 + (f.toNat : Int)

/-- The length of a run: the payload plus 1 (R92). -/
def runLength (n : BitVec 6) : Nat := n.toNat + 1

/-- The cache slot an INDEX token names: its 6 bits as they stand (R89). -/
def indexSlot (i : BitVec 6) : Fin 64 := ⟨i.toNat, i.isLt⟩

/-- `PREV` with a delta on each colour channel, alpha unchanged: the channels do not interact (R190, R192). -/
def addDeltas (p : Pixel) (dr dg db : Int) : Pixel :=
  ⟨addDelta p.r dr, addDelta p.g dg, addDelta p.b db, p.a⟩

/-- `diff(PREV, t)` (45_differential_tokens.md R194). -/
def diffPixel (p : Pixel) (r g b : BitVec 2) : Pixel :=
  addDeltas p (diffDelta r) (diffDelta g) (diffDelta b)

/-- `luma(PREV, t, b1)` (R195). -/
def lumaPixel (p : Pixel) (g : BitVec 6) (r b : BitVec 4) : Pixel :=
  addDeltas p (lumaDelta g r) (lumaGreen g) (lumaDelta g b)

end Sys2Proof.Machine
end

