-- ==== Sys2Proof/Config.lean ====
section
/-! DEFINITION. What an implementation fixes (00_scope.md R7) and the free values: what the spec leaves
unspecified (10_state.md R41, 93_implementation_defined.md U6). -/

namespace Sys2Proof

/-- The implementation parameters of 00_scope.md R7. -/
structure Config.Params where
  /-- `LEN_W`: width in bits of `IN_LEN`, `BODY_LEN`, `CURSOR`; `none` is unbounded. -/
  lenW : Option Nat
  /-- `MAX_PIXELS`: the largest `WIDTH * HEIGHT` the output memory can hold. -/
  maxPixels : Nat
  /-- `SIZE_MISMATCH_IS_ERROR`: the spec gives rules for `true` only. -/
  sizeMismatchIsError : Bool
deriving DecidableEq, Repr

/-- The defaults of 00_scope.md R7: unbounded lengths, no limit on the image, a mismatch is an error.
DESIGN CHOICE, log entries 7, 8 and 9: `step` runs the block at the spec's own defaults; `stepWith` takes any. -/
def Config.params : Config.Params :=
  { lenW := none, maxPixels := 2 ^ 64 - 1, sizeMismatchIsError := true }

/-- FREE VALUE, log entry 4: the byte that input address `addr` holds when nothing has written it since
reset event number `epoch` (10_state.md R41; U6: any value). -/
opaque Config.unspecifiedIn (epoch addr : Nat) : Byte

/-- FREE VALUE, log entry 4: the same for output address `addr`. -/
opaque Config.unspecifiedOut (epoch addr : Nat) : Byte

/-- FREE VALUE, log entry 5: `IN_LEN` after reset event number `epoch` (R41; U6: any value). -/
opaque Config.unspecifiedInLen (epoch : Nat) : Nat

end Sys2Proof
end

