-- ==== Sys2Proof/Syntax.lean ====
section
/-! DEFINITION. The six tokens, one constructor per row of spec/opcode_table.json. The operands are the
raw unsigned fields of 30_encoding.md R85; the biases are subtracted where the token is executed (R94). -/

namespace Sys2Proof

/-- A token with its fields as they stand in its bytes (30_encoding.md R84, R85, R89 to R93). -/
inductive Instr
  /-- RGB literal: tag FE and three channel bytes (R93). -/
  | rgb (r g b : Byte)
  /-- RGBA literal: tag FF and four channel bytes (R93). -/
  | rgba (r g b a : Byte)
  /-- INDEX: a cache slot number (R89). -/
  | index (i : BitVec 6)
  /-- DIFF: three 2-bit fields, each biased by 2 (R90). -/
  | diff (r g b : BitVec 2)
  /-- LUMA: the green field biased by 32, and the red and blue nibbles, biased by 8 and relative to
  the green delta (R91). -/
  | luma (g : BitVec 6) (r b : BitVec 4)
  /-- RUN: the payload, the run length minus 1 (R92). -/
  | run (n : BitVec 6)
deriving DecidableEq, Repr

end Sys2Proof
end

