-- ==== Sys2Proof/WellFormed.lean ====
section
/-! DEFINITION. Which terms of `Instr` have an encoding: all but RUN payloads 62 and 63, whose tag bytes
are the literal tags (30_encoding.md R92). -/

namespace Sys2Proof

/-- RUN carries a payload 0 .. 61 (R92); every other field value is legal (R89, R90, R91, R93, R95). -/
def Instr.WellFormed : Instr → Bool
  | .rgb _ _ _ => true
  | .rgba _ _ _ _ => true
  | .index _ => true
  | .diff _ _ _ => true
  | .luma _ _ _ => true
  | .run n => decide (n.toNat ≤ 61)

end Sys2Proof
end

