-- ==== Sys2Proof/Decode.lean ====
section
/-! DEFINITION. The encoding of the container and of the tokens (30_encoding.md): constants, classifying a
tag byte, the decoder (total on bytes, rejecting by name), the encoder, and the spec's textual forms. -/

namespace Sys2Proof

/-! ### Constants of the container (00_scope.md R6, 30_encoding.md R80 to R82) -/

/-- `MAGIC`: the first four input bytes. -/
def magic : List Byte := [0x71, 0x6F, 0x69, 0x66]

/-- `TRAILER`: the last eight input bytes (R82). -/
def trailer : List Byte := [0x00, 0x00, 0x00, 0x00, 0x00, 0x00, 0x00, 0x01]

/-- `HEADER_BYTES`: the size of the header, so the input address of body offset 0 (20_memory.md R52). -/
def headerBytes : Nat := 14

/-- `TRAILER_BYTES`. -/
def trailerBytes : Nat := 8

/-- `MIN_INPUT`: the smallest legal input length, 14 + 8. -/
def minInput : Nat := headerBytes + trailerBytes

/-- The big-endian reading of a byte sequence, the first byte most significant: `be32` and `be64` of
00_scope.md R10, 40_header_codec.md R110 (20_memory.md R56). -/
def bigEndian (bs : List Byte) : Nat := bs.foldl (fun acc b => 256 * acc + b.toNat) 0

/-- The four bytes of a `u32`, most significant first (R56, R99). -/
def be32Bytes (v : BitVec 32) : List Byte :=
  [v.extractLsb' 24 8, v.extractLsb' 16 8, v.extractLsb' 8 8, v.extractLsb' 0 8]

/-! ### Classifying a tag byte (R86, R87, R100) -/

/-- The six token kinds (R86). -/
inductive TokenKind
  | rgb | rgba | index | diff | luma | run
deriving DecidableEq, Repr

/-- `t[7:6]`, the selector of a tag (R8, R84). -/
def selector (t : Byte) : BitVec 2 := t.extractLsb' 6 2

/-- `t[5:0]`, the payload of a tag (R8, R84). -/
def payload (t : Byte) : BitVec 6 := t.extractLsb' 0 6

/-- `classify` of R100: kind, length in bytes, pixels produced. -/
def classify (t : Byte) : TokenKind × Nat × Nat :=
  if t = 0xFE then (.rgb, 4, 1)
  else if t = 0xFF then (.rgba, 5, 1)
  else if selector t = 0b00 then (.index, 1, 1)
  else if selector t = 0b01 then (.diff, 1, 1)
  else if selector t = 0b10 then (.luma, 2, 1)
  else (.run, 1, (payload t).toNat + 1)

/-- The length of a token is told by its tag alone (R88). -/
def tokenLength (t : Byte) : Nat := (classify t).2.1

/-- One row of the mask and match form (R101); `exclude` lists the bytes the row must not take. -/
structure OpcodeRow where
  kind : TokenKind
  mask : Byte
  pattern : Byte
  exclude : List Byte
deriving DecidableEq, Repr

/-- R101, in its order. -/
def opcodeRows : List OpcodeRow :=
  [⟨.rgb, 0xFF, 0xFE, []⟩, ⟨.rgba, 0xFF, 0xFF, []⟩, ⟨.index, 0xC0, 0x00, []⟩,
   ⟨.diff, 0xC0, 0x40, []⟩, ⟨.luma, 0xC0, 0x80, []⟩, ⟨.run, 0xC0, 0xC0, [0xFE, 0xFF]⟩]

/-- A row matches when `(t AND mask) = match` and the byte is not excluded (R101). -/
def OpcodeRow.takes (row : OpcodeRow) (t : Byte) : Bool :=
  decide (t &&& row.mask = row.pattern) && !row.exclude.contains t

/-! ### The decoder -/

/-- Why a byte sequence does not begin with a token. -/
inductive Reject
  /-- There is no tag byte. -/
  | noTag
  /-- The tag asks for `need` bytes, itself included, and only `avail` are there (42_token_dispatch.md R148). -/
  | truncated (need avail : Nat)
deriving DecidableEq, Repr

/-- What the decoder answers: a token and the bytes after it, or a rejection by name. -/
inductive Decoded
  | ok (i : Instr) (rest : List Byte)
  | reject (why : Reject)
deriving DecidableEq, Repr

/-- The token of tag `t` with the trailing bytes `bs` (R85, R89 to R93). Only the token's own trailing
bytes are looked at; the callers hand over all of them. -/
def tokenOf (t : Byte) (bs : List Byte) : Instr :=
  match (classify t).1 with
  | .rgb => .rgb (bs.getD 0 0) (bs.getD 1 0) (bs.getD 2 0)
  | .rgba => .rgba (bs.getD 0 0) (bs.getD 1 0) (bs.getD 2 0) (bs.getD 3 0)
  | .index => .index (payload t)
  | .diff => .diff (t.extractLsb' 4 2) (t.extractLsb' 2 2) (t.extractLsb' 0 2)
  | .luma => .luma (payload t) ((bs.getD 0 0).extractLsb' 4 4) ((bs.getD 0 0).extractLsb' 0 4)
  | .run => .run (payload t)

/-- The decoder, total on byte sequences: the tag tells the length (R88); every tag is a token (R95), so a
sequence is rejected only when it is empty or ends inside a token. -/
def decode : List Byte → Decoded
  | [] => .reject .noTag
  | t :: bs =>
    if bs.length + 1 < tokenLength t then .reject (.truncated (tokenLength t) (bs.length + 1))
    else .ok (tokenOf t bs) (bs.drop (tokenLength t - 1))

/-- The instruction in a decoder's answer. -/
def Decoded.instr? : Decoded → Option Instr
  | .ok i _ => some i
  | .reject _ => none

/-! ### The encoder (R85, R98) -/

/-- The bytes of a token, from the layouts of R85. -/
def encode : Instr → List Byte
  | .rgb r g b => [0xFE, r, g, b]
  | .rgba r g b a => [0xFF, r, g, b, a]
  | .index i => [0b00#2 ++ i]
  | .diff r g b => [0b01#2 ++ r ++ g ++ b]
  | .luma g r b => [0b10#2 ++ g, r ++ b]
  | .run n => [0b11#2 ++ n]

/-- The length of a token in bytes (R84, R87). -/
def Instr.length : Instr → Nat
  | .rgb _ _ _ => 4
  | .rgba _ _ _ _ => 5
  | .index _ => 1
  | .diff _ _ _ => 1
  | .luma _ _ _ => 2
  | .run _ => 1

/-- The length of the longest token (R84). -/
def maxTokenBytes : Nat := 5

/-! ### A table word (the host's question) -/

/-- The bytes of an instruction whose bits are `w`, bit 0 the least significant bit of the first byte, cut
to `nbits` bits and followed by zero bytes up to the longest token. -/
def tableBytes (nbits w : Nat) : List Byte :=
  (List.range maxTokenBytes).map (fun k => BitVec.ofNat 8 (w % 2 ^ nbits / 2 ^ (8 * k)))

/-- The instruction the decoder reads from a table word. -/
def decodeTableWord (nbits w : Nat) : Option Instr := (decode (tableBytes nbits w)).instr?

/-! ### The spec's textual forms (R98, R99) -/

/-- A token as R98 writes it, with its signed operands. -/
inductive AsmToken
  | rgb (r g b : Nat)
  | rgba (r g b a : Nat)
  | index (i : Nat)
  | diff (dr dg db : Int)
  | luma (dg drg dbg : Int)
  | run (n : Nat)
deriving DecidableEq, Repr

/-- The operand ranges of R98. -/
def AsmToken.inRange : AsmToken → Bool
  | .rgb r g b => decide (r ≤ 255 ∧ g ≤ 255 ∧ b ≤ 255)
  | .rgba r g b a => decide (r ≤ 255 ∧ g ≤ 255 ∧ b ≤ 255 ∧ a ≤ 255)
  | .index i => decide (i ≤ 63)
  | .diff dr dg db => decide ((-2 ≤ dr ∧ dr ≤ 1) ∧ (-2 ≤ dg ∧ dg ≤ 1) ∧ (-2 ≤ db ∧ db ≤ 1))
  | .luma dg drg dbg => decide ((-32 ≤ dg ∧ dg ≤ 31) ∧ (-8 ≤ drg ∧ drg ≤ 7) ∧ (-8 ≤ dbg ∧ dbg ≤ 7))
  | .run n => decide (1 ≤ n ∧ n ≤ 62)

/-- The byte column of R98. -/
def AsmToken.bytes : AsmToken → List Byte
  | .rgb r g b => [0xFE, BitVec.ofNat 8 r, BitVec.ofNat 8 g, BitVec.ofNat 8 b]
  | .rgba r g b a => [0xFF, BitVec.ofNat 8 r, BitVec.ofNat 8 g, BitVec.ofNat 8 b, BitVec.ofNat 8 a]
  | .index i => [BitVec.ofNat 8 i]
  | .diff dr dg db => [BitVec.ofInt 8 (0x40 + 16 * (dr + 2) + 4 * (dg + 2) + (db + 2))]
  | .luma dg drg dbg => [BitVec.ofInt 8 (0x80 + (dg + 32)), BitVec.ofInt 8 (16 * (drg + 8) + (dbg + 8))]
  | .run n => [BitVec.ofNat 8 (0xC0 + (n - 1))]

/-- `IMAGE w, h, ch, cs` with a body: the container of R80, R81, R99. -/
def imageBytes (w h : BitVec 32) (ch cs : Byte) (body : List Byte) : List Byte :=
  magic ++ be32Bytes w ++ be32Bytes h ++ [ch, cs] ++ body ++ trailer

end Sys2Proof
end

