-- ==== Sys2Proof/Machine/Packing.lean ====
section
/-! DEFINITION. The byte layout of a pixel and its inverse (46_output_packing.md R205 to R209). -/

namespace Sys2Proof.Machine

/-- A pixel as bytes: red, green, blue, alpha (46_output_packing.md R205, 20_memory.md R58). -/
def pixelBytes (p : Pixel) : List Byte := [p.r, p.g, p.b, p.a]

/-- A pixel sequence as bytes: no padding between pixels (R205). -/
def pixelsToBytes (ps : List Pixel) : List Byte := ps.flatMap pixelBytes

/-- Bytes as a pixel sequence, defined only when the length is divisible by 4 (R208). -/
def bytesToPixels : List Byte → Option (List Pixel)
  | [] => some []
  | r :: g :: b :: a :: bs => (bytesToPixels bs).map (⟨r, g, b, a⟩ :: ·)
  | _ => none

end Sys2Proof.Machine
end

