-- ==== Sys2Proof/Machine/Ops.lean ====
section
/-! DEFINITION. The operations the steps are made of: byte memories, reading `IN`, raising an error, and the
parts of a TOKEN step (42_token_dispatch.md R152 to R156). -/

namespace Sys2Proof.Machine

/-- The state with another list of host moves to come. -/
def State.withHost (s : State) (hs : List HostMove) : State := { s with host := hs }

/-! ### Byte memories -/

/-- The byte listed at an address. -/
def Memory.read : Memory → Nat → Option Byte
  | [], _ => none
  | (a, b) :: m, k => if a = k then some b else Memory.read m k

/-- Store a byte, keeping the addresses strictly rising. -/
def Memory.write : Memory → Nat → Byte → Memory
  | [], k, v => [(k, v)]
  | (a, b) :: m, k, v =>
    if k < a then (k, v) :: (a, b) :: m
    else if k = a then (k, v) :: m
    else (a, b) :: Memory.write m k v

/-- Store bytes at ascending addresses: `MemWrite` of 20_memory.md R51. -/
def Memory.writeBytes : Memory → Nat → List Byte → Memory
  | m, _, [] => m
  | m, k, v :: vs => Memory.writeBytes (Memory.write m k v) (k + 1) vs

/-- The canonical form: strictly rising addresses. No value is what an unlisted address reads as, so
nothing else can be redundant. -/
def Memory.wf : Memory → Bool
  | [] => true
  | [_] => true
  | (a, _) :: (c, d) :: m => decide (a < c) && Memory.wf ((c, d) :: m)

/-! ### Reading the two memories -/

/-- The byte at input address `addr`: what was written there, or a free value when nothing has been since
the last reset (log entry 4; 10_state.md R41). The same address gives the same byte until it is written
or the block is reset (20_memory.md R50). -/
def State.inByte (s : State) (addr : Nat) : Byte :=
  (s.inMem.read addr).getD (Config.unspecifiedIn s.resets addr)

/-- The byte at output address `addr`, in the same way. The block never reads it (20_memory.md R51). -/
def State.outByte (s : State) (addr : Nat) : Byte :=
  (s.outMem.read addr).getD (Config.unspecifiedOut s.resets addr)

/-- The `n` input bytes from `addr` up, in ascending order. -/
def State.inBytes (s : State) (addr n : Nat) : List Byte := (List.range n).map (fun k => s.inByte (addr + k))

/-- `MemRead(IN, addr, n)` handed on to `k`; defined only inside `IN_LEN` (20_memory.md R50), elsewhere a
fault (log entry 12). -/
def readIn (s : State) (addr n : Nat) (k : List Byte → Host.Outcome State Fault Refusal) :
    Host.Outcome State Fault Refusal :=
  if addr + n ≤ s.inLen then k (s.inBytes addr n) else .fault (.inputOutOfRange addr n)

/-- `body(k) .. body(k + n - 1)` handed on: body offset `k` is input address `14 + k` (20_memory.md R52). -/
def readBody (s : State) (off n : Nat) (k : List Byte → Host.Outcome State Fault Refusal) :
    Host.Outcome State Fault Refusal :=
  readIn s (headerBytes + off) n k

/-! ### Raising an error (60_exceptions.md R221, R236) -/

/-- `ERR_CODE` of an error (R221). -/
def DecodeError.code : DecodeError → BitVec 4
  | .tooShort _ => 1
  | .badMagic _ => 2
  | .badTrailer _ => 3
  | .badChannels _ => 4
  | .badColorspace _ => 5
  | .truncated _ _ => 6
  | .sizeMismatch _ _ => 7
  | .capacity _ _ => 8

/-- What an error writes to `ERR_EXPECTED` (R221 to R229). -/
def DecodeError.expected : DecodeError → Nat
  | .tooShort _ => minInput
  | .badMagic _ => bigEndian magic
  | .badTrailer _ => bigEndian trailer
  | .badChannels _ => 3
  | .badColorspace _ => 0
  | .truncated len _ => len
  | .sizeMismatch expected _ => expected
  | .capacity limit _ => limit

/-- What an error writes to `ERR_FOUND` (R221 to R229). -/
def DecodeError.found : DecodeError → Nat
  | .tooShort found => found
  | .badMagic found => found
  | .badTrailer found => found
  | .badChannels found => found.toNat
  | .badColorspace found => found.toNat
  | .truncated _ left => left
  | .sizeMismatch _ found => found
  | .capacity _ found => found

/-- `raise E(expected, found)` (R236): the three error registers and the phase, nothing else. The payload
registers have 64 bits (log entry 14). -/
def raise (e : DecodeError) (s : State) : State :=
  { s with
    errCode := e.code
    errExpected := BitVec.ofNat 64 e.expected
    errFound := BitVec.ofNat 64 e.found
    phase := .error }

/-! ### The parts of a TOKEN step (42_token_dispatch.md R152 to R156) -/

/-- `insert(P)` (41_color_cache.md R133). -/
def insert (p : Pixel) (s : State) : State := { s with cache := cacheInsert s.cache p }

/-- `emit(P)`: four bytes at `4 * OUT_COUNT`, then `OUT_COUNT + 1` (R153). -/
def emit (p : Pixel) (s : State) : State :=
  { s with
    outMem := s.outMem.writeBytes (4 * s.outCount.toNat) (pixelBytes p)
    outCount := s.outCount + 1 }

/-- `emit(P)` done `n` times (44_index_run_tokens.md R181). -/
def emitRun : Nat → Pixel → State → State
  | 0, _, s => s
  | n + 1, p, s => emitRun n p (emit p s)

/-- `PREV <- P` (R154). -/
def setPrev (p : Pixel) (s : State) : State := { s with prev := p }

/-- `CURSOR <- CURSOR + len` (R156). -/
def advance (len : Nat) (s : State) : State := { s with cursor := s.cursor + len }

/-- The capacity check of a token that gives `n` pixels (R152), and then its effects: all of them or, when
the pixels do not all fit, the size-mismatch error and none of them (R159). -/
def checked (n : Nat) (effects : State → State) (s : State) : Host.Outcome State Fault Refusal :=
  if s.pixelCount.toNat < s.outCount.toNat + n then
    .next (raise (.sizeMismatch s.pixelCount.toNat (s.outCount.toNat + n)) s)
  else .next (effects s)

/-- The commit of a token that gives the one pixel `p` and inserts it: RGB, RGBA, DIFF, LUMA (R155). -/
def produceInserting (len : Nat) (p : Pixel) (s : State) : Host.Outcome State Fault Refusal :=
  checked 1 (fun s => advance len (setPrev p (emit p (insert p s)))) s

/-- The commit of a token that gives the one pixel `p` and leaves the cache alone: INDEX (R155). -/
def produce (len : Nat) (p : Pixel) (s : State) : Host.Outcome State Fault Refusal :=
  checked 1 (fun s => advance len (setPrev p (emit p s))) s

end Sys2Proof.Machine
end

