-- ==== Sys2Proof/Machine/Differential.lean ====
section
/-! DEFINITION. differential_pixel_reconstructor: the tokens DIFF and LUMA (45_differential_tokens.md). -/

namespace Sys2Proof.Machine

/-- DIFF (R194). -/
def execDiff (r g b : BitVec 2) (s : State) : Host.Outcome State Fault Refusal :=
  produceInserting 1 (diffPixel s.prev r g b) s

/-- LUMA (R195). -/
def execLuma (g : BitVec 6) (r b : BitVec 4) (s : State) : Host.Outcome State Fault Refusal :=
  produceInserting 2 (lumaPixel s.prev g r b) s

end Sys2Proof.Machine
end

