-- ==== Sys2Proof/Machine/IndexRun.lean ====
section
/-! DEFINITION. The cache-indexed and run-length tokens (44_index_run_tokens.md). -/

namespace Sys2Proof.Machine

/-- INDEX (R180): the pixel in the slot; no insert. -/
def execIndex (i : BitVec 6) (s : State) : Host.Outcome State Fault Refusal :=
  produce 1 (cacheGet s.cache (indexSlot i)) s

/-- RUN (R181): `n + 1` copies of `PREV`, checked as a whole; `PREV` and `CACHE` unchanged. -/
def execRun (n : BitVec 6) (s : State) : Host.Outcome State Fault Refusal :=
  checked (runLength n) (fun s => advance 1 (emitRun (runLength n) s.prev s)) s

end Sys2Proof.Machine
end

