-- ==== Sys2Proof/Machine/Literal.lean ====
section
/-! DEFINITION. The literal tokens (43_literal_tokens.md). -/

namespace Sys2Proof.Machine

/-- RGB (R170): the three channels of the token, alpha of `PREV`. -/
def execRgb (r g b : Byte) (s : State) : Host.Outcome State Fault Refusal :=
  produceInserting 4 ⟨r, g, b, s.prev.a⟩ s

/-- RGBA (R171): the four channels of the token. -/
def execRgba (r g b a : Byte) (s : State) : Host.Outcome State Fault Refusal :=
  produceInserting 5 ⟨r, g, b, a⟩ s

end Sys2Proof.Machine
end

