-- ==== Sys2Proof/Machine/Dispatch.lean ====
section
/-! DEFINITION. What a fetched token does: the capacity check and the commit of the TOKEN step
(42_token_dispatch.md R145), one arm per token. -/

namespace Sys2Proof.Machine

def exec (i : Instr) (s : State) : Host.Outcome State Fault Refusal :=
  match i with
  | .rgb r g b => Sys2Proof.Machine.execRgb r g b s
  | .rgba r g b a => Sys2Proof.Machine.execRgba r g b a s
  | .index k => Sys2Proof.Machine.execIndex k s
  | .diff r g b => Sys2Proof.Machine.execDiff r g b s
  | .luma g r b => Sys2Proof.Machine.execLuma g r b s
  | .run n => Sys2Proof.Machine.execRun n s

end Sys2Proof.Machine
end

