-- ==== Sys2Proof/Machine/Header.lean ====
section
/-! DEFINITION. The header codec: the HEADER step (40_header_codec.md). -/

namespace Sys2Proof.Machine

/-- What the HEADER step writes when every check has passed (R114, R117, R119). -/
def acceptHeader (w h : BitVec 32) (ch cs : Byte) (s : State) : State :=
  { s with
    width := w
    height := h
    channels := ch
    colorspace := cs
    pixelCount := BitVec.ofNat 64 (w.toNat * h.toNat)
    bodyLen := s.inLen - minInput
    cursor := 0
    phase := .body }

/-- The HEADER step (R110): the checks in its order, the first that fails raises its error; enabled in phase
HEADER. -/
def headerStep (p : Config.Params) (s : State) : Host.Outcome State Fault Refusal :=
  if s.inLen < minInput then .next (raise (.tooShort s.inLen) s) else
  readIn s 0 4 fun m =>
  if m ≠ magic then .next (raise (.badMagic (bigEndian m)) s) else
  readIn s (s.inLen - trailerBytes) 8 fun z =>
  if z ≠ trailer then .next (raise (.badTrailer (bigEndian z)) s) else
  readIn s 4 4 fun wBytes =>
  readIn s 8 4 fun hBytes =>
  readIn s 12 1 fun chBytes =>
  readIn s 13 1 fun csBytes =>
  let w := BitVec.ofNat 32 (bigEndian wBytes)
  let h := BitVec.ofNat 32 (bigEndian hBytes)
  let ch := chBytes.headD 0
  let cs := csBytes.headD 0
  if ch ≠ 3 ∧ ch ≠ 4 then .next (raise (.badChannels ch) s) else
  if cs ≠ 0 ∧ cs ≠ 1 then .next (raise (.badColorspace cs) s) else
  if p.maxPixels < w.toNat * h.toNat then .next (raise (.capacity p.maxPixels (w.toNat * h.toNat)) s) else
  .next (acceptHeader w h ch cs s)

end Sys2Proof.Machine
end

