-- ==== Sys2Proof/Machine/TokenDispatch.lean ====
section
/-! DEFINITION. token_dispatch_fsm: the TOKEN step with its fetch, the FINISH step, and which step the block
takes in which phase (42_token_dispatch.md, 10_state.md R32). -/

namespace Sys2Proof.Machine

/-- The TOKEN step (R145): the tag at `CURSOR` (R146), its length (R147), the truncation check (R148), the
trailing bytes (R149), and the token itself. Enabled in phase BODY with `CURSOR < BODY_LEN`. -/
def tokenStep (s : State) : Host.Outcome State Fault Refusal :=
  readBody s s.cursor 1 fun tag =>
  let t := tag.headD 0
  if s.bodyLen < s.cursor + tokenLength t then
    .next (raise (.truncated (tokenLength t) (s.bodyLen - s.cursor)) s)
  else
    readBody s (s.cursor + 1) (tokenLength t - 1) fun bs =>
    exec (tokenOf t bs) s

/-- The FINISH step (R158). Enabled in phase BODY with `CURSOR = BODY_LEN`. -/
def finishStep (s : State) : Host.Outcome State Fault Refusal :=
  if s.outCount = s.pixelCount then .next { s with phase := .done }
  else .next (raise (.sizeMismatch s.pixelCount.toNat s.outCount.toNat) s)

/-- The step the block takes by itself (10_state.md R32). In IDLE, DONE and ERROR it does nothing until the
host moves (60_exceptions.md R239, R242): DEDUCED, log entry 6. -/
def blockStep (p : Config.Params) (s : State) : Host.Outcome State Fault Refusal :=
  match s.phase with
  | .idle => .next s
  | .header => headerStep p s
  | .body =>
    if s.cursor < s.bodyLen then tokenStep s
    else if s.cursor = s.bodyLen then finishStep s
    else .fault .noStepEnabled
  | .done => .next s
  | .error => .next s

/-- `s` in phase BODY with the bytes `bs` at `CURSOR`, just before the end of the body, and room in the output
for any token: the state in which the next step is a TOKEN step on `bs`. Log entry 2. -/
def placeToken (bs : List Byte) (s : State) : State :=
  { s with
    host := []
    phase := .body
    inMem := s.inMem.writeBytes (headerBytes + s.cursor) bs
    inLen := s.cursor + bs.length + minInput
    bodyLen := s.cursor + bs.length
    width := 0xFFFFFFFF
    height := 0xFFFFFFFF
    channels := 4
    colorspace := 0
    pixelCount := 0xFFFFFFFE00000001 }

end Sys2Proof.Machine
end

