-- ==== Sys2Proof/Machine/HostMoves.lean ====
section
/-! DEFINITION. What the host does to the block (60_exceptions.md R241, 70_reset_and_hazards.md R260 to R266),
and how its moves and the block's steps take turns. -/

namespace Sys2Proof.Machine

/-- Whether `LEN_W` bits hold a length (00_scope.md R7; 93_implementation_defined.md U11). -/
def fitsLen (p : Config.Params) (n : Nat) : Bool :=
  match p.lenW with
  | none => true
  | some w => decide (n < 2 ^ w)

/-- The START step (60_exceptions.md R241). `IN`, `IN_LEN` and `OUT` are not changed. -/
def startStep (s : State) : State :=
  { s with
    prev := prevInit
    cache := cacheInit
    cursor := 0
    outCount := 0
    width := 0
    height := 0
    channels := 0
    colorspace := 0
    pixelCount := 0
    bodyLen := 0
    errCode := 0
    errExpected := 0
    errFound := 0
    phase := .header }

/-- `IN_LEN` after reset event number `n`: unspecified (10_state.md R41), a free value that fits in `LEN_W`
bits (log entry 5). -/
def resetInLen (p : Config.Params) (n : Nat) : Nat :=
  match p.lenW with
  | none => Config.unspecifiedInLen n
  | some w => Config.unspecifiedInLen n % 2 ^ w

/-- The reset event (70_reset_and_hazards.md R260): every register as in `State.reset`, `IN_LEN` and the
contents of `IN` and `OUT` unspecified (log entries 4 and 5). The host's later moves stay to come. -/
def resetEvent (p : Config.Params) (s : State) : State :=
  { State.reset with
    inLen := resetInLen p (s.resets + 1)
    host := s.host
    resets := s.resets + 1 }

/-- One move of the host, `s` being the state with that move taken off the list. Writes of `IN` and
`IN_LEN`, and START, only while the block is not busy (70_reset_and_hazards.md R265, R266); a breach has no
meaning and is refused (log entry 11). -/
def hostStep (p : Config.Params) (move : HostMove) (s : State) : Host.Outcome State Fault Refusal :=
  match move with
  | .wait => blockStep p s
  | .writeIn addr bytes =>
    if s.busy then .refused .hostWriteWhileBusy
    else if fitsLen p (addr + bytes.length) then .next { s with inMem := s.inMem.writeBytes addr bytes }
    else .refused .inputTooLong
  | .setInLen len =>
    if s.busy then .refused .hostWriteWhileBusy
    else if fitsLen p len then .next { s with inLen := len }
    else .refused .inputTooLong
  | .start => if s.busy then .refused .startWhileBusy else .next (startStep s)
  | .reset => .next (resetEvent p s)

/-- One step of block and host together, for any implementation parameters: the host's next move, or, when
its list is used up, the block's own step. A build with `SIZE_MISMATCH_IS_ERROR` false is refused (U1). -/
def stepWith (p : Config.Params) (s : State) : Host.Outcome State Fault Refusal :=
  if p.sizeMismatchIsError then
    match s.host with
    | [] => blockStep p s
    | move :: rest => hostStep p move (s.withHost rest)
  else .refused .lenientSizeMismatch

end Sys2Proof.Machine
end

