-- ==== Sys2Proof/Machine/Step.lean ====
section
/-! DEFINITION. One step of the machine at the spec's default parameters, and how the host's checks place one
instruction where the next step fetches it (log entry 2). -/

namespace Sys2Proof.Machine

/-- One step: the host's next move, or the block's own step. -/
def step (s : State) : Host.Outcome State Fault Refusal := stepWith Config.params s

/-- `s` with a table word as the token the next step fetches and runs. -/
def State.withFetchWord (s : State) (nbits w : Nat) : State := placeToken (tableBytes nbits w) s

end Sys2Proof.Machine
end

