-- ==== Sys2Proof/Machine/Output.lean ====
section
/-! DEFINITION. What the host may read: the result in phase DONE and the error in phase ERROR
(46_output_packing.md R211, 70_reset_and_hazards.md R264, R265). Reading has no effect. -/

namespace Sys2Proof.Machine

/-- The pixel at output position `i` (46_output_packing.md R205). -/
def State.outPixel (s : State) (i : Nat) : Pixel :=
  ⟨s.outByte (4 * i), s.outByte (4 * i + 1), s.outByte (4 * i + 2), s.outByte (4 * i + 3)⟩

/-- The bytes `MemRead(OUT, 0, n)`. -/
def State.outBytes (s : State) (n : Nat) : List Byte := (List.range n).map s.outByte

/-- The result of a decode: `4 * PIXEL_COUNT` bytes, in phase DONE only (R206, R211). -/
def State.result (s : State) : Option (List Byte) :=
  if s.phase = .done then some (s.outBytes (4 * s.pixelCount.toNat)) else none

/-- The error of a decode: code, expected, found, in phase ERROR only (60_exceptions.md R221). -/
def State.errorReport (s : State) : Option (BitVec 4 × BitVec 64 × BitVec 64) :=
  if s.phase = .error then some (s.errCode, s.errExpected, s.errFound) else none

end Sys2Proof.Machine
end

