-- ==== Sys2Proof/Machine/WholeDecode.lean ====
section
/-! DEFINITION. A whole decode as one function (42_token_dispatch.md R160), written from that rule and not from
`step`; the statements relate the two. -/

namespace Sys2Proof.Machine

/-- `while CURSOR < BODY_LEN: run TOKEN_step` (R160), ended early by an error; `fuel` bounds the number of
rounds, and `BODY_LEN` rounds are always enough (R161). -/
def tokenLoop : Nat → State → Host.Outcome State Fault Refusal
  | 0, s => .next s
  | fuel + 1, s =>
    if s.phase = .body ∧ s.cursor < s.bodyLen then
      match tokenStep s with
      | .next t => tokenLoop fuel t
      | .fault r => .fault r
      | .refused r => .refused r
    else .next s

/-- FINISH after the loop, unless an error was raised (R160). -/
def finishLoop (s : State) : Host.Outcome State Fault Refusal :=
  if s.phase = .body then finishStep s else .next s

/-- `decode` of R160 on the input that `IN` and `IN_LEN` of `s` hold: START's initialisation, the HEADER step,
the tokens, FINISH. -/
def wholeDecode (p : Config.Params) (s : State) : Host.Outcome State Fault Refusal :=
  match headerStep p (startStep s) with
  | .next s1 =>
    match tokenLoop s1.bodyLen s1 with
    | .next s2 => finishLoop s2
    | .fault r => .fault r
    | .refused r => .refused r
  | .fault r => .fault r
  | .refused r => .refused r

/-- `k` steps of block and host, ended early by a fault or a refusal. -/
def runSteps : Nat → State → Host.Outcome State Fault Refusal
  | 0, s => .next s
  | k + 1, s =>
    match step s with
    | .next t => runSteps k t
    | .fault r => .fault r
    | .refused r => .refused r

/-- The host's moves that hand an input to the block and start it (70_reset_and_hazards.md R263). -/
def loadMoves (input : List Byte) : List HostMove := [.writeIn 0 input, .setInLen input.length, .start]

end Sys2Proof.Machine
end

