-- ==== Sys2Proof/Safety.lean ====
section
/-! DEFINITION. The terms the statements are made of: the invariant of every run (10_state.md R42, R43), and
what a token stream should decode to, written without the machine's state. -/

namespace Sys2Proof.Machine

/-- The decode state before any token (10_state.md R41): what reset and START leave, and the HEADER step
finds. -/
structure Fresh (s : State) : Prop where
  prev : s.prev = ⟨0, 0, 0, 255⟩
  seed : s.cache[53] = ⟨0, 0, 0, 255⟩
  slots : ∀ i : Slot, i ≠ 53 → s.cache[i] = ⟨0, 0, 0, 0⟩
  cursor : s.cursor = 0
  outCount : s.outCount = 0
  width : s.width = 0
  height : s.height = 0
  channels : s.channels = 0
  colorspace : s.colorspace = 0
  pixelCount : s.pixelCount = 0
  bodyLen : s.bodyLen = 0

/-- `PREV` is the last pixel in `OUT`, or its initial value when nothing has been emitted (R42 (e)). -/
def LastPixel (s : State) : Prop :=
  (s.outCount = 0 → s.prev = ⟨0, 0, 0, 255⟩) ∧
  (s.outCount ≠ 0 →
    s.outMem.read (4 * (s.outCount.toNat - 1)) = some s.prev.r ∧
    s.outMem.read (4 * (s.outCount.toNat - 1) + 1) = some s.prev.g ∧
    s.outMem.read (4 * (s.outCount.toNat - 1) + 2) = some s.prev.b ∧
    s.outMem.read (4 * (s.outCount.toNat - 1) + 3) = some s.prev.a)

/-- What holds in every state of every run (10_state.md R33, R34, R42, R43), with the canonical form of the
two memories. -/
structure Inv (s : State) : Prop where
  inWf : s.inMem.wf = true
  outWf : s.outMem.wf = true
  /-- `ERR_CODE != 0` exactly in ERROR (R33), and a code is 1 to 8 (R42 (c)). -/
  errPhase : s.errCode ≠ 0 ↔ s.phase = .error
  errRange : s.errCode.toNat ≤ 8
  /-- Both payload registers are 0 when there is no error (R34). -/
  errRegs : s.errCode = 0 → s.errExpected = 0 ∧ s.errFound = 0
  /-- `PIXEL_COUNT` is the exact product (R30, R42 (a)). -/
  product : s.pixelCount.toNat = s.width.toNat * s.height.toNat
  /-- The output is never overrun (R26, R42 (a)). -/
  counts : s.outCount.toNat ≤ s.pixelCount.toNat
  /-- The cursor never passes the end of the body (R25, R42 (a)). -/
  cursorIn : s.cursor ≤ s.bodyLen
  /-- `BODY_LEN = IN_LEN - 22` in phase BODY (R42 (a)). -/
  body : s.phase = .body → s.bodyLen + 22 = s.inLen
  /-- The header fields are legal from BODY on (R42 (a)). -/
  fields : s.phase = .body ∨ s.phase = .done →
    (s.channels = 3 ∨ s.channels = 4) ∧ (s.colorspace = 0 ∨ s.colorspace = 1)
  /-- DONE only with the whole body read and every pixel made (R42 (b)). -/
  done : s.phase = .done → s.cursor = s.bodyLen ∧ s.outCount = s.pixelCount
  /-- Before the header has been checked the decode state is the initial one (R41). -/
  fresh : s.phase = .idle ∨ s.phase = .header → Fresh s
  last : LastPixel s
  /-- A cache slot holds a pixel that hashes to it, or the default pixel (R43). -/
  slots : ∀ i : Slot, pixelHash s.cache[i] = i ∨ s.cache[i] = ⟨0, 0, 0, 0⟩

/-- Two states in which a decode is at the same point: every register equal, the same bytes in the input, and
the same output written so far. What the memories hold elsewhere, from earlier decodes, may differ
(60_exceptions.md R241). -/
structure SameDecode (s t : State) : Prop where
  registers : t = { s with inMem := t.inMem, outMem := t.outMem, resets := t.resets }
  input : ∀ a, a < s.inLen → s.inByte a = t.inByte a
  written : ∀ a, a < 4 * s.outCount.toNat → s.outMem.read a = t.outMem.read a

/-- Two outcomes of the same kind, next states related by `R`, stops equal. -/
def OutcomeRel (R : State → State → Prop) :
    Host.Outcome State Fault Refusal → Host.Outcome State Fault Refusal → Prop
  | .next s, .next t => R s t
  | .fault a, .fault b => a = b
  | .refused a, .refused b => a = b
  | _, _ => False

/-- The pixels a token gives, with the previous pixel and the cache as it finds them
(42_token_dispatch.md R145, R150). -/
def tokenPixels (prev : Pixel) (cache : Slot → Pixel) : Instr → List Pixel
  | .rgb r g b => [⟨r, g, b, prev.a⟩]
  | .rgba r g b a => [⟨r, g, b, a⟩]
  | .index i => [cache (indexSlot i)]
  | .diff r g b => [diffPixel prev r g b]
  | .luma g r b => [lumaPixel prev g r b]
  | .run n => List.replicate (n.toNat + 1) prev

/-- Whether a token inserts its pixel into the cache (41_color_cache.md R139). -/
def insertsPixel : Instr → Bool
  | .rgb _ _ _ => true
  | .rgba _ _ _ _ => true
  | .index _ => false
  | .diff _ _ _ => true
  | .luma _ _ _ => true
  | .run _ => false

/-- The cache after a token, as a function of the slot: an inserting token puts its pixel where it hashes to
(R133, R155). -/
def cacheAfter (prev : Pixel) (cache : Slot → Pixel) (i : Instr) : Slot → Pixel :=
  fun k => (tokenPixels prev cache i).foldl
    (fun old p => if insertsPixel i = true ∧ pixelHash p = k then p else old) (cache k)

/-- The pixels a token stream decodes to: each token sees the last pixel before it and the cache that the
tokens before it left (20_memory.md R64). -/
def streamPixels : Pixel → (Slot → Pixel) → List Instr → List Pixel
  | _, _, [] => []
  | prev, cache, i :: is =>
    tokenPixels prev cache i ++
      streamPixels ((tokenPixels prev cache i).getLastD prev) (cacheAfter prev cache i) is

/-- The cache before any token (10_state.md R22). -/
def firstCache : Slot → Pixel := fun k => if k = 53 then ⟨0, 0, 0, 255⟩ else ⟨0, 0, 0, 0⟩

/-- The number of pixels a token gives (42_token_dispatch.md R150). -/
def pixelsProduced : Instr → Nat
  | .rgb _ _ _ => 1
  | .rgba _ _ _ _ => 1
  | .index _ => 1
  | .diff _ _ _ => 1
  | .luma _ _ _ => 1
  | .run n => n.toNat + 1

/-- From `s` to `t`, `n` copies of `p` are appended to `OUT`: they stand at the positions from `OUT_COUNT` on, as
four bytes each, and every other byte of `OUT` reads as before (42_token_dispatch.md R153). -/
structure Emits (n : Nat) (p : Pixel) (s t : State) : Prop where
  count : t.outCount.toNat = s.outCount.toNat + n
  pixels : ∀ k, k < n → t.outPixel (s.outCount.toNat + k) = p
  others : ∀ a, a < 4 * s.outCount.toNat ∨ 4 * (s.outCount.toNat + n) ≤ a → t.outByte a = s.outByte a

/-- From `s` to `t`, `p` is inserted: its slot holds it, every other slot is as before
(41_color_cache.md R133). -/
def Inserts (p : Pixel) (s t : State) : Prop :=
  ∀ k : Slot, cacheGet t.cache k =
    if k.val = (3 * p.r.toNat + 5 * p.g.toNat + 7 * p.b.toNat + 11 * p.a.toNat) % 64 then p
    else cacheGet s.cache k

/-- The first four input bytes are the magic (40_header_codec.md R112). -/
abbrev MagicOk (s : State) : Prop :=
  s.inByte 0 = 0x71 ∧ s.inByte 1 = 0x6F ∧ s.inByte 2 = 0x69 ∧ s.inByte 3 = 0x66

/-- The last eight input bytes are the trailer (R113). -/
abbrev TrailerOk (s : State) : Prop :=
  (∀ k, k < 7 → s.inByte (s.inLen - 8 + k) = 0x00) ∧ s.inByte (s.inLen - 1) = 0x01

/-- The channel byte is legal (R115). -/
abbrev ChannelsOk (s : State) : Prop := s.inByte 12 = 3 ∨ s.inByte 12 = 4

/-- The colorspace byte is legal (R116). -/
abbrev ColorspaceOk (s : State) : Prop := s.inByte 13 = 0 ∨ s.inByte 13 = 1

/-- The big-endian `u32` at input address `a` (00_scope.md R10, 20_memory.md R56). -/
def inWord (s : State) (a : Nat) : Nat :=
  (s.inByte a).toNat * 2 ^ 24 + (s.inByte (a + 1)).toNat * 2 ^ 16 + (s.inByte (a + 2)).toNat * 2 ^ 8 +
    (s.inByte (a + 3)).toNat

/-- What a written token stands for (30_encoding.md R90, R91, R92, R98): its operands, the signed ones as
deltas. -/
def AsmMeans : AsmToken → Instr → Prop
  | .rgb r g b, .rgb r' g' b' => r'.toNat = r ∧ g'.toNat = g ∧ b'.toNat = b
  | .rgba r g b a, .rgba r' g' b' a' => r'.toNat = r ∧ g'.toNat = g ∧ b'.toNat = b ∧ a'.toNat = a
  | .index i, .index i' => i'.toNat = i
  | .diff dr dg db, .diff r g b => diffDelta r = dr ∧ diffDelta g = dg ∧ diffDelta b = db
  | .luma dg drg dbg, .luma g r b =>
    lumaGreen g = dg ∧ lumaDelta g r = dg + drg ∧ lumaDelta g b = dg + dbg
  | .run n, .run p => runLength p = n
  | _, _ => False

/-- The host's next move is none: the block takes its own step and `hs` is what the host does after. -/
def BlockMoves (s : State) (hs : List HostMove) : Prop :=
  (s.host = [] ∧ hs = []) ∨ s.host = .wait :: hs

end Sys2Proof.Machine
end

