-- ==== Sys2Proof/Certificates/Slice0/Obligations.lean ====
section
/-! DEFINITION. The statements about the model: each follows the rules of spec/ that its docstring names. -/

open Sys2Proof Sys2Proof.Machine

/-! ### Encoding (30_encoding.md) -/

/-- R84 to R93: every token that has an encoding is read back from its bytes, whatever follows them, with every
operand at every value. -/
def Obligations.DecodeReadsBackEveryToken : Prop :=
  ∀ (i : Instr) (rest : List Byte), i.WellFormed = true → decode (encode i ++ rest) = .ok i rest

/-- R87, R88: a byte sequence is read as a token in one way only: it is that token's encoding followed by the
rest, and the token is well-formed (no RUN of 63 or 64, R92). -/
def Obligations.DecodedBytesAreTheEncoding : Prop :=
  ∀ (bs : List Byte) (i : Instr) (rest : List Byte),
    decode bs = .ok i rest → i.WellFormed = true ∧ bs = encode i ++ rest

/-- R88, R95: every tag byte begins a token of the length the tag tells; a sequence is rejected exactly when
it is empty or shorter than that, and by name. -/
def Obligations.DecodeRejectsOnlyTruncation : Prop :=
  decode [] = .reject .noTag ∧
  ∀ (t : Byte) (bs : List Byte),
    (tokenLength t ≤ bs.length + 1 →
      ∃ i, decode (t :: bs) = .ok i (bs.drop (tokenLength t - 1)) ∧ i.length = tokenLength t) ∧
    (bs.length + 1 < tokenLength t →
      decode (t :: bs) = .reject (.truncated (tokenLength t) (bs.length + 1)))

/-- R100 (with the ranges of R87): classify gives every byte its token, its length and its pixel count. -/
def Obligations.ClassifyFollowsTagMap : Prop :=
  ∀ t : Byte,
    (t.toNat ≤ 0x3F → classify t = (.index, 1, 1)) ∧
    (0x40 ≤ t.toNat ∧ t.toNat ≤ 0x7F → classify t = (.diff, 1, 1)) ∧
    (0x80 ≤ t.toNat ∧ t.toNat ≤ 0xBF → classify t = (.luma, 2, 1)) ∧
    (0xC0 ≤ t.toNat ∧ t.toNat ≤ 0xFD → classify t = (.run, 1, t.toNat - 0xC0 + 1)) ∧
    (t.toNat = 0xFE → classify t = (.rgb, 4, 1)) ∧
    (t.toNat = 0xFF → classify t = (.rgba, 5, 1))

/-- R101: the mask and match rows, tried in order, select what classify selects, and with RUN's exclusion
exactly one row takes each byte. -/
def Obligations.MaskRowsSelectOneToken : Prop :=
  ∀ t : Byte, (opcodeRows.filter (fun row => row.takes t)).map OpcodeRow.kind = [(classify t).1]

/-- R85, R90, R91, R92, 95_test_vectors.md 2.3 to 2.8: words written out from the layouts decode to the tokens
they stand for. -/
def Obligations.WrittenWordsDecode : Prop :=
  decodeTableWord 32 0xC89664FE = some (.rgb 100 150 200) ∧
  decodeTableWord 40 0x40302010FF = some (.rgba 16 32 48 64) ∧
  decodeTableWord 8 0b00110101 = some (.index 53) ∧
  decodeTableWord 8 0b01111001 = some (.diff 0b11 0b10 0b01) ∧
  decodeTableWord 16 0b0101110110101010 = some (.luma 42 5 13) ∧
  decodeTableWord 8 0b11111101 = some (.run 61) ∧
  decodeTableWord 8 0b11111110 = some (.rgb 0 0 0)

/-- R98 (with R90 to R92): the bytes of a written token decode to the token whose operands, biases taken off,
are the written ones. -/
def Obligations.WrittenTokensDecodeToTheirOperands : Prop :=
  ∀ a : AsmToken, a.inRange = true → ∃ i, decode a.bytes = .ok i [] ∧ i.WellFormed = true ∧ AsmMeans a i

/-! ### Arithmetic (45_differential_tokens.md, 41_color_cache.md) -/

/-- R190: adding a signed delta to a channel is the addition modulo 256, with a result in 0 .. 255. -/
def Obligations.ChannelAdditionIsModulo256 : Prop :=
  ∀ (c : Byte) (d : Int), ((addDelta c d).toNat : Int) = ((c.toNat : Int) + d) % 256

/-- R191: the two's complement form and the signed form give the same channel; all deltas fit in 8 signed
bits and have the ranges named. -/
def Obligations.ChannelAdditionEquivalentForms : Prop :=
  (∀ (c : Byte) (d : Int), addDelta c d = c + BitVec.ofInt 8 d ∧ addDelta c d = BitVec.ofInt 8 (c.toInt + d)) ∧
  (∀ f : BitVec 2, -2 ≤ diffDelta f ∧ diffDelta f ≤ 1) ∧
  (∀ g : BitVec 6, -32 ≤ lumaGreen g ∧ lumaGreen g ≤ 31) ∧
  (∀ (g : BitVec 6) (f : BitVec 4), -40 ≤ lumaDelta g f ∧ lumaDelta g f ≤ 38)

/-- R130, R131: the hash is the weighted sum modulo 64, the sum never exceeds 6630, and the low 6 bits of the
sum in 8-bit wrapping arithmetic are the same slot. -/
def Obligations.HashEqualsWrappingHash : Prop :=
  ∀ p : Pixel,
    (pixelHash p).val = (3 * p.r.toNat + 5 * p.g.toNat + 7 * p.b.toNat + 11 * p.a.toNat) % 64 ∧
    hashSum p ≤ 6630 ∧
    (pixelHash p).val = (3 * p.r + 5 * p.g + 7 * p.b + 11 * p.a).toNat % 64

/-! ### The color cache (41_color_cache.md) -/

/-- R133: insert overwrites the slot the pixel hashes to, and no other slot changes; after START,
insert((16,32,48,64)) fills slot 32. -/
def Obligations.InsertOverwritesOneSlot : Prop :=
  (∀ (cache : ColorCache) (p : Pixel) (k : Slot),
    cacheGet (cacheInsert cache p) k = if pixelHash p = k then p else cacheGet cache k) ∧
  pixelHash ⟨16, 32, 48, 64⟩ = 32

/-- R135: init gives every slot the default pixel but slot 53, which holds (0,0,0,255); it is clearing and then
inserting PREV_INIT, and reset and START both perform it. -/
def Obligations.CacheInitSeedsSlot53 : Prop :=
  cacheGet cacheInit 53 = ⟨0, 0, 0, 255⟩ ∧
  (∀ k : Slot, k ≠ 53 → cacheGet cacheInit k = ⟨0, 0, 0, 0⟩) ∧
  cacheInit = cacheInsert (Vector.replicate 64 ⟨0, 0, 0, 0⟩) ⟨0, 0, 0, 255⟩ ∧
  State.reset.cache = cacheInit ∧
  (∀ s : State, (startStep s).cache = cacheInit) ∧
  (∀ (p : Config.Params) (s : State), (resetEvent p s).cache = cacheInit)

/-- R137, R138: of two pixels with one hash the later wins; inserting a pixel that is already in its slot
changes nothing, so inserting twice is inserting once. -/
def Obligations.InsertLastWinsAndIsIdempotent : Prop :=
  (∀ (cache : ColorCache) (p q : Pixel), pixelHash p = pixelHash q →
    cacheInsert (cacheInsert cache p) q = cacheInsert cache q ∧
    cacheGet (cacheInsert (cacheInsert cache p) q) (pixelHash p) = q) ∧
  (∀ (cache : ColorCache) (p : Pixel), cacheGet cache (pixelHash p) = p → cacheInsert cache p = cache) ∧
  (∀ (cache : ColorCache) (p : Pixel), cacheInsert (cacheInsert cache p) p = cacheInsert cache p)

/-! ### Errors (60_exceptions.md) -/

/-- R236, what raise writes: the code, the two payloads and PHASE = ERROR, and nothing else. That it replaces the rest
of the step that raises is stated where the steps are (OverrunRaisesSizeMismatch, TruncatedTokenRaises,
HeaderReportsTheFirstFault, ErrorsArePrecise). A payload is written modulo 2^64: log entry 14, DEDUCED; no run
writes one that does not fit. -/
def Obligations.RaiseWritesOnlyErrorRegisters : Prop :=
  ∀ (e : DecodeError) (s : State),
    raise e s =
      { s with
        errCode := e.code
        errExpected := BitVec.ofNat 64 e.expected
        errFound := BitVec.ofNat 64 e.found
        phase := .error }

/-- R221: the code, the expected and the found value of each error. -/
def Obligations.ErrorTable : Prop :=
  (∀ n, (DecodeError.tooShort n).code = 1 ∧ (DecodeError.tooShort n).expected = 22 ∧
    (DecodeError.tooShort n).found = n) ∧
  (∀ n, (DecodeError.badMagic n).code = 2 ∧ (DecodeError.badMagic n).expected = 0x716F6966 ∧
    (DecodeError.badMagic n).found = n) ∧
  (∀ n, (DecodeError.badTrailer n).code = 3 ∧ (DecodeError.badTrailer n).expected = 1 ∧
    (DecodeError.badTrailer n).found = n) ∧
  (∀ b : Byte, (DecodeError.badChannels b).code = 4 ∧ (DecodeError.badChannels b).expected = 3 ∧
    (DecodeError.badChannels b).found = b.toNat) ∧
  (∀ b : Byte, (DecodeError.badColorspace b).code = 5 ∧ (DecodeError.badColorspace b).expected = 0 ∧
    (DecodeError.badColorspace b).found = b.toNat) ∧
  (∀ l n, (DecodeError.truncated l n).code = 6 ∧ (DecodeError.truncated l n).expected = l ∧
    (DecodeError.truncated l n).found = n) ∧
  (∀ e n, (DecodeError.sizeMismatch e n).code = 7 ∧ (DecodeError.sizeMismatch e n).expected = e ∧
    (DecodeError.sizeMismatch e n).found = n) ∧
  (∀ m n, (DecodeError.capacity m n).code = 8 ∧ (DecodeError.capacity m n).expected = m ∧
    (DecodeError.capacity m n).found = n)

/-! ### The six tokens (43, 44, 45): where each completes, and with what result -/

/-- R170: RGB completes whenever one more pixel fits: the pixel is (r, g, b, PREV.a); it is inserted, emitted
and kept in PREV, and the cursor moves by 4. -/
def Obligations.RgbCompletes : Prop :=
  ∀ (r g b : Byte) (s : State), s.outCount.toNat + 1 ≤ s.pixelCount.toNat →
    ∃ t, exec (.rgb r g b) s = .next t ∧
      t.prev = ⟨r, g, b, s.prev.a⟩ ∧ Inserts ⟨r, g, b, s.prev.a⟩ s t ∧ Emits 1 ⟨r, g, b, s.prev.a⟩ s t ∧
      t.cursor = s.cursor + 4

/-- R171: RGBA completes whenever one more pixel fits: the pixel is (r, g, b, a), whatever PREV holds. -/
def Obligations.RgbaCompletes : Prop :=
  ∀ (r g b a : Byte) (s : State), s.outCount.toNat + 1 ≤ s.pixelCount.toNat →
    ∃ t, exec (.rgba r g b a) s = .next t ∧
      t.prev = ⟨r, g, b, a⟩ ∧ Inserts ⟨r, g, b, a⟩ s t ∧ Emits 1 ⟨r, g, b, a⟩ s t ∧
      t.cursor = s.cursor + 5

/-- R180: INDEX completes whenever one more pixel fits: the pixel is the one in the slot its 6 bits name; PREV
takes it and the cache is unchanged. -/
def Obligations.IndexCompletes : Prop :=
  ∀ (k : BitVec 6) (s : State), s.outCount.toNat + 1 ≤ s.pixelCount.toNat →
    ∃ t, exec (.index k) s = .next t ∧
      (∀ j : Slot, j.val = k.toNat → t.prev = cacheGet s.cache j ∧ Emits 1 (cacheGet s.cache j) s t) ∧
      t.cache = s.cache ∧ t.cursor = s.cursor + 1

/-- R194: DIFF completes whenever one more pixel fits: each colour channel is the previous one plus its field
minus 2, modulo 256, and alpha is unchanged. -/
def Obligations.DiffCompletes : Prop :=
  ∀ (r g b : BitVec 2) (s : State), s.outCount.toNat + 1 ≤ s.pixelCount.toNat →
    ∃ t, exec (.diff r g b) s = .next t ∧
      (t.prev.r.toNat : Int) = ((s.prev.r.toNat : Int) + ((r.toNat : Int) - 2)) % 256 ∧
      (t.prev.g.toNat : Int) = ((s.prev.g.toNat : Int) + ((g.toNat : Int) - 2)) % 256 ∧
      (t.prev.b.toNat : Int) = ((s.prev.b.toNat : Int) + ((b.toNat : Int) - 2)) % 256 ∧
      t.prev.a = s.prev.a ∧
      Inserts t.prev s t ∧ Emits 1 t.prev s t ∧ t.cursor = s.cursor + 1

/-- R195: LUMA completes whenever one more pixel fits: green moves by its field minus 32, red and blue by that
plus their nibble minus 8, all modulo 256, and alpha is unchanged. -/
def Obligations.LumaCompletes : Prop :=
  ∀ (g : BitVec 6) (r b : BitVec 4) (s : State), s.outCount.toNat + 1 ≤ s.pixelCount.toNat →
    ∃ t, exec (.luma g r b) s = .next t ∧
      (t.prev.r.toNat : Int) = ((s.prev.r.toNat : Int) + (((g.toNat : Int) - 32) - 8 + (r.toNat : Int))) % 256 ∧
      (t.prev.g.toNat : Int) = ((s.prev.g.toNat : Int) + ((g.toNat : Int) - 32)) % 256 ∧
      (t.prev.b.toNat : Int) = ((s.prev.b.toNat : Int) + (((g.toNat : Int) - 32) - 8 + (b.toNat : Int))) % 256 ∧
      t.prev.a = s.prev.a ∧
      Inserts t.prev s t ∧ Emits 1 t.prev s t ∧ t.cursor = s.cursor + 2

/-- R181 for the payloads 0 to 61, which are all that R92 has: RUN completes whenever its payload plus 1 copies fit;
that many copies of PREV are emitted, PREV and the cache are unchanged. For the payloads 62 and 63, which have no
encoding, the same is the model's choice, log entry 21 (DESIGN CHOICE), and no rule of the spec. -/
def Obligations.RunCompletes : Prop :=
  ∀ (n : BitVec 6) (s : State), s.outCount.toNat + (n.toNat + 1) ≤ s.pixelCount.toNat →
    ∃ t, exec (.run n) s = .next t ∧
      Emits (n.toNat + 1) s.prev s t ∧ t.prev = s.prev ∧ t.cache = s.cache ∧ t.cursor = s.cursor + 1

/-- R145, R155, R243: what the six tokens leave unchanged. A token writes PREV, CACHE, CURSOR, OUT_COUNT and
OUT and nothing else; INDEX and RUN leave the cache, RUN leaves PREV; every byte of OUT outside the
`4 * n` bytes at `4 * OUT_COUNT` is as before. -/
def Obligations.TokensLeaveTheRestUnchanged : Prop :=
  ∀ (i : Instr) (s t : State), exec i s = .next t →
    s.outCount.toNat + pixelsProduced i ≤ s.pixelCount.toNat →
    t = { s with
      prev := t.prev, cache := t.cache, cursor := t.cursor, outCount := t.outCount, outMem := t.outMem } ∧
    ((∃ k, i = .index k) ∨ (∃ n, i = .run n) → t.cache = s.cache) ∧
    ((∃ n, i = .run n) → t.prev = s.prev) ∧
    (∀ a, a < 4 * s.outCount.toNat ∨ 4 * s.outCount.toNat + 4 * pixelsProduced i ≤ a →
      t.outByte a = s.outByte a) ∧
    (∀ a, t.inByte a = s.inByte a)

/-- R152: a token whose pixels do not all fit raises E_SIZE_MISMATCH with PIXEL_COUNT and the count it would
have reached, and changes nothing else, not even for the part of a run that would fit. With the counts of a
run of the block (R26, R30) the recorded count is exact and greater than PIXEL_COUNT. -/
def Obligations.OverrunRaisesSizeMismatch : Prop :=
  ∀ (i : Instr) (s : State), s.pixelCount.toNat < s.outCount.toNat + pixelsProduced i →
    exec i s = .next
      { s with
        phase := .error
        errCode := 7
        errExpected := s.pixelCount
        errFound := s.outCount + BitVec.ofNat 64 (pixelsProduced i) } ∧
    (s.pixelCount.toNat = s.width.toNat * s.height.toNat → s.outCount.toNat ≤ s.pixelCount.toNat →
      (s.outCount + BitVec.ofNat 64 (pixelsProduced i)).toNat = s.outCount.toNat + pixelsProduced i ∧
      s.pixelCount.toNat < (s.outCount + BitVec.ofNat 64 (pixelsProduced i)).toNat)

/-- R154: after a token that does not raise, PREV equals the last pixel emitted, and RUN leaves PREV as it is. -/
def Obligations.PrevIsLastPixelEmitted : Prop :=
  ∀ (i : Instr) (s : State), s.outCount.toNat + pixelsProduced i ≤ s.pixelCount.toNat →
    ∃ t, exec i s = .next t ∧ t.outPixel (t.outCount.toNat - 1) = t.prev ∧
      (∀ n, i = .run n → t.prev = s.prev)

/-- R195: the ranges of LUMA include those of DIFF: for every DIFF there is a LUMA that does the same but for
the cursor, which it moves by one byte more. -/
def Obligations.LumaCoversDiff : Prop :=
  ∀ fr fg fb : BitVec 2, ∃ (g : BitVec 6) (r b : BitVec 4),
    ∀ s : State, s.outCount.toNat + 1 ≤ s.pixelCount.toNat →
      ∃ t, exec (.diff fr fg fb) s = .next t ∧ exec (.luma g r b) s = .next { t with cursor := t.cursor + 1 }

/-! ### The steps of the block (42, 40, 60) -/

/-- R145 to R149: when the body bytes from the cursor on decode to a token, the step runs exactly that token. -/
def Obligations.StepRunsTheDecodedToken : Prop :=
  ∀ (s : State) (hs : List HostMove) (i : Instr) (rest : List Byte),
    BlockMoves s hs → s.phase = .body → s.cursor < s.bodyLen → 14 + s.bodyLen ≤ s.inLen →
    decode (s.inBytes (14 + s.cursor) (s.bodyLen - s.cursor)) = .ok i rest →
    step s = exec i { s with host := hs }

/-- R148, R151: a token whose bytes are not all inside the body raises E_TRUNCATED with its length and the
bytes left, whether or not its pixels would fit, and changes nothing else; only the lengths 2, 4 and 5 can. -/
def Obligations.TruncatedTokenRaises : Prop :=
  ∀ (s : State) (hs : List HostMove),
    BlockMoves s hs → s.phase = .body → s.cursor < s.bodyLen → 14 + s.bodyLen ≤ s.inLen →
    s.bodyLen < s.cursor + tokenLength (s.inByte (14 + s.cursor)) →
    step s = .next
      { s with
        host := hs
        phase := .error
        errCode := 6
        errExpected := BitVec.ofNat 64 (tokenLength (s.inByte (14 + s.cursor)))
        errFound := BitVec.ofNat 64 (s.bodyLen - s.cursor) } ∧
    (tokenLength (s.inByte (14 + s.cursor)) = 2 ∨ tokenLength (s.inByte (14 + s.cursor)) = 4 ∨
      tokenLength (s.inByte (14 + s.cursor)) = 5) ∧
    1 ≤ s.bodyLen - s.cursor ∧ s.bodyLen - s.cursor < tokenLength (s.inByte (14 + s.cursor))

/-- R156, R157: a TOKEN step that does not raise moves the cursor by the length its tag tells, 1, 2, 4 or 5
bytes, and not past the end of the body; one that raises leaves it. -/
def Obligations.CursorMovesByTheTokenLength : Prop :=
  ∀ (s t : State) (hs : List HostMove),
    BlockMoves s hs → s.phase = .body → s.cursor < s.bodyLen → 14 + s.bodyLen ≤ s.inLen → step s = .next t →
    (t.phase = .error ∧ t.cursor = s.cursor) ∨
    (t.phase = .body ∧ t.cursor = s.cursor + tokenLength (s.inByte (14 + s.cursor)) ∧
      tokenLength (s.inByte (14 + s.cursor)) ∈ [1, 2, 4, 5] ∧ t.cursor ≤ t.bodyLen)

/-- R158: at the end of the body the step goes to DONE when the pixel count is the declared one, and otherwise
raises E_SIZE_MISMATCH with PIXEL_COUNT and OUT_COUNT; nothing else changes. -/
def Obligations.FinishEndsTheDecode : Prop :=
  ∀ (s : State) (hs : List HostMove), BlockMoves s hs → s.phase = .body → s.cursor = s.bodyLen →
    (s.outCount = s.pixelCount → step s = .next { s with host := hs, phase := .done }) ∧
    (s.outCount ≠ s.pixelCount →
      step s = .next
        { s with
          host := hs
          phase := .error
          errCode := 7
          errExpected := s.pixelCount
          errFound := s.outCount })

/-- R110 to R113, R115, R116, R120, R232: the HEADER step makes its checks in order, and the first that fails
gives its code, its expected and its found value, and changes nothing else. -/
def Obligations.HeaderReportsTheFirstFault : Prop :=
  ∀ (s : State) (hs : List HostMove), BlockMoves s hs → s.phase = .header →
    (s.inLen < 22 →
      step s = .next
        { s with
          host := hs, phase := .error, errCode := 1, errExpected := 22, errFound := BitVec.ofNat 64 s.inLen }) ∧
    (22 ≤ s.inLen → ¬ MagicOk s →
      step s = .next
        { s with
          host := hs, phase := .error, errCode := 2, errExpected := 0x716F6966
          errFound := BitVec.ofNat 64 (inWord s 0) }) ∧
    (22 ≤ s.inLen → MagicOk s → ¬ TrailerOk s →
      step s = .next
        { s with
          host := hs, phase := .error, errCode := 3, errExpected := 1
          errFound := BitVec.ofNat 64 (inWord s (s.inLen - 8) * 2 ^ 32 + inWord s (s.inLen - 4)) }) ∧
    (22 ≤ s.inLen → MagicOk s → TrailerOk s → ¬ ChannelsOk s →
      step s = .next
        { s with
          host := hs, phase := .error, errCode := 4, errExpected := 3
          errFound := BitVec.ofNat 64 (s.inByte 12).toNat }) ∧
    (22 ≤ s.inLen → MagicOk s → TrailerOk s → ChannelsOk s → ¬ ColorspaceOk s →
      step s = .next
        { s with
          host := hs, phase := .error, errCode := 5, errExpected := 0
          errFound := BitVec.ofNat 64 (s.inByte 13).toNat })

/-- R114, R117, R119: when every check passes the HEADER step writes the header registers, the exact product
and the body length, sets the cursor to 0 and goes to BODY; PREV, CACHE, OUT_COUNT and OUT are untouched. -/
def Obligations.HeaderAcceptsAndFillsRegisters : Prop :=
  ∀ (s : State) (hs : List HostMove), BlockMoves s hs → s.phase = .header →
    22 ≤ s.inLen → MagicOk s → TrailerOk s → ChannelsOk s → ColorspaceOk s →
    ∃ t, step s = .next t ∧
      t.width.toNat = inWord s 4 ∧ t.height.toNat = inWord s 8 ∧
      t.pixelCount.toNat = inWord s 4 * inWord s 8 ∧
      t = { s with
        host := hs
        width := t.width
        height := t.height
        channels := s.inByte 12
        colorspace := s.inByte 13
        pixelCount := t.pixelCount
        bodyLen := s.inLen - 22
        cursor := 0
        phase := .body }

/-- R118, R229: with a finite MAX_PIXELS a larger image raises E_CAPACITY with the limit and the product; with
the default MAX_PIXELS the code 8 is never raised. -/
def Obligations.CapacityIsCheckedUpFront : Prop :=
  (∀ (p : Config.Params) (s : State), p.sizeMismatchIsError = true → s.host = [] → s.phase = .header →
    22 ≤ s.inLen → MagicOk s → TrailerOk s → ChannelsOk s → ColorspaceOk s →
    p.maxPixels < inWord s 4 * inWord s 8 →
    stepWith p s = .next
      { s with
        phase := .error
        errCode := 8
        errExpected := BitVec.ofNat 64 p.maxPixels
        errFound := BitVec.ofNat 64 (inWord s 4 * inWord s 8) }) ∧
  (∀ s t : State, step s = .next t → t.errCode = 8 → s.errCode = 8)

/-- R80, R99, R119: a container with legal header fields is accepted, and its body is what the tokens are then
read from. -/
def Obligations.HeaderAcceptsEveryContainer : Prop :=
  ∀ (w h : BitVec 32) (ch cs : Byte) (body : List Byte) (s : State) (hs : List HostMove),
    BlockMoves s hs → s.phase = .header → (ch = 3 ∨ ch = 4) → (cs = 0 ∨ cs = 1) →
    s.inLen = (imageBytes w h ch cs body).length → s.inBytes 0 s.inLen = imageBytes w h ch cs body →
    step s = .next
      { s with
        host := hs
        width := w
        height := h
        channels := ch
        colorspace := cs
        pixelCount := BitVec.ofNat 64 (w.toNat * h.toNat)
        bodyLen := body.length
        cursor := 0
        phase := .body } ∧
    s.inBytes 14 body.length = body

/-! ### Host and reset (60_exceptions.md R241, 70_reset_and_hazards.md) -/

/-- R241: START, in IDLE, DONE or ERROR, gives the decode state its initial values and goes to HEADER; IN,
IN_LEN and OUT are not changed. -/
def Obligations.StartInitialisesTheDecode : Prop :=
  ∀ (s : State) (hs : List HostMove), s.host = .start :: hs →
    (s.phase = .idle ∨ s.phase = .done ∨ s.phase = .error) →
    step s = .next
      { s with
        host := hs
        prev := ⟨0, 0, 0, 255⟩
        cache := cacheInit
        cursor := 0
        outCount := 0
        width := 0
        height := 0
        channels := 0
        colorspace := 0
        pixelCount := 0
        bodyLen := 0
        errCode := 0
        errExpected := 0
        errFound := 0
        phase := .header }

/-- The model's choice, log entry 11 (93_implementation_defined.md U4, U5): while the block is busy a START or a
write of IN or IN_LEN is refused by name, and otherwise it is not. -/
def Obligations.HostBreachesAreRefused : Prop :=
  ∀ (s : State) (hs : List HostMove) (addr len : Nat) (bytes : List Byte),
    (s.phase = .header ∨ s.phase = .body →
      (s.host = .start :: hs → step s = .refused .startWhileBusy) ∧
      (s.host = .writeIn addr bytes :: hs → step s = .refused .hostWriteWhileBusy) ∧
      (s.host = .setInLen len :: hs → step s = .refused .hostWriteWhileBusy)) ∧
    (¬ (s.phase = .header ∨ s.phase = .body) →
      (s.host = .start :: hs ∨ s.host = .writeIn addr bytes :: hs ∨ s.host = .setInLen len :: hs) →
      ∃ t, step s = .next t)

/-- R263, R265, R27, R37 (the two separate moves are log entry 15): while the block is not busy the host's write of
IN stores the bytes at their addresses and nothing else, and its write of IN_LEN sets that register alone. -/
def Obligations.HostLoadsTheInput : Prop :=
  ∀ (s : State) (hs : List HostMove), ¬ (s.phase = .header ∨ s.phase = .body) →
    (∀ addr bytes, s.host = .writeIn addr bytes :: hs →
      ∃ t, step s = .next t ∧ t = { s with host := hs, inMem := t.inMem } ∧
        ∀ a, t.inByte a =
          if addr ≤ a ∧ a < addr + bytes.length then bytes.getD (a - addr) 0 else s.inByte a) ∧
    (∀ len, s.host = .setInLen len :: hs → step s = .next { s with host := hs, inLen := len })

/-- R260, R41: a reset, in any phase, gives every register its reset value and PHASE = IDLE. What it leaves in
IN_LEN, IN and OUT is the model's free value (log entries 4 and 5) and is not stated. -/
def Obligations.ResetEventRestoresRegisters : Prop :=
  ∀ (s : State) (hs : List HostMove), s.host = .reset :: hs →
    ∃ t, step s = .next t ∧
      t = { State.reset with
        inLen := t.inLen, inMem := t.inMem, outMem := t.outMem, host := hs, resets := t.resets }

/-- R41, the column "after reset" (IN_LEN, IN and OUT are unspecified there; the model's values for them are log
entries 3 and 4 and are not stated). -/
def Obligations.ResetValues : Prop :=
  State.reset.prev = ⟨0, 0, 0, 255⟩ ∧
  cacheGet State.reset.cache 53 = ⟨0, 0, 0, 255⟩ ∧
  (∀ k : Slot, k ≠ 53 → cacheGet State.reset.cache k = ⟨0, 0, 0, 0⟩) ∧
  State.reset.cursor = 0 ∧ State.reset.outCount = 0 ∧
  State.reset.width = 0 ∧ State.reset.height = 0 ∧ State.reset.channels = 0 ∧ State.reset.colorspace = 0 ∧
  State.reset.pixelCount = 0 ∧ State.reset.bodyLen = 0 ∧ State.reset.phase = .idle ∧
  State.reset.errCode = 0 ∧ State.reset.errExpected = 0 ∧ State.reset.errFound = 0 ∧
  State.reset.busy = false ∧ State.reset.done = false ∧ State.reset.error = false

/-- R239, R242, and the model's reading of them in log entry 6: in IDLE, DONE and ERROR the block does nothing
until the host starts or resets it. -/
def Obligations.BlockRestsOutsideADecode : Prop :=
  ∀ (s : State) (hs : List HostMove), BlockMoves s hs →
    (s.phase = .idle ∨ s.phase = .done ∨ s.phase = .error) → step s = .next { s with host := hs }

/-- R36: the three levels as functions of PHASE; at most one is 1, and all are 0 exactly in IDLE. -/
def Obligations.StatusLevels : Prop :=
  ∀ s : State,
    (s.busy = true ↔ s.phase = .header ∨ s.phase = .body) ∧
    (s.done = true ↔ s.phase = .done) ∧
    (s.error = true ↔ s.phase = .error) ∧
    ¬ (s.busy = true ∧ s.done = true) ∧ ¬ (s.busy = true ∧ s.error = true) ∧
    ¬ (s.done = true ∧ s.error = true) ∧
    ((s.busy = false ∧ s.done = false ∧ s.error = false) ↔ s.phase = .idle)

/-! ### Invariants and rules about every step -/

/-- R42, R43, R33, R34 at reset: the invariant holds in the state after reset. -/
def Obligations.ResetMeetsTheInvariant : Prop := Inv State.reset

/-- R42, R43, R33, R34 (and the canonical form of the memories): every step, of the block or of the host, keeps the
invariant. -/
def Obligations.EveryStepKeepsTheInvariant : Prop :=
  ∀ s t : State, Inv s → step s = .next t → Inv t

/-- R230, R50: in a state that meets the invariant no step faults, and when the host does nothing the step
answers a next state. -/
def Obligations.NoFaultUnderTheInvariant : Prop :=
  ∀ s : State, Inv s →
    (∀ r, step s ≠ .fault r) ∧ (∀ hs, BlockMoves s hs → ∃ t, step s = .next t)

/-- R51, R153, R42 (d): every step but a reset leaves every byte of OUT as it was, except the bytes of the
pixels by which OUT_COUNT grew; those lie below `4 * PIXEL_COUNT`. -/
def Obligations.OutputIsAppendOnly : Prop :=
  ∀ s t : State, step s = .next t → s.host.head? ≠ some .reset →
    ∀ a, t.outByte a ≠ s.outByte a →
      4 * s.outCount.toNat ≤ a ∧ a < 4 * t.outCount.toNat ∧ a < 4 * t.pixelCount.toNat

/-- R50, R68, R27: the block never writes IN or IN_LEN: when the host does nothing or performs START, both are as
before. -/
def Obligations.BlockNeverWritesTheInput : Prop :=
  ∀ (s t : State) (hs : List HostMove), step s = .next t → BlockMoves s hs ∨ s.host = .start :: hs →
    t.inMem = s.inMem ∧ t.inLen = s.inLen ∧ ∀ a, t.inByte a = s.inByte a

/-- R159, R235, R237, R120: when a HEADER, TOKEN or FINISH step raises, only the three error registers and PHASE
change. -/
def Obligations.ErrorsArePrecise : Prop :=
  ∀ (s t : State) (hs : List HostMove), BlockMoves s hs → (s.phase = .header ∨ s.phase = .body) →
    step s = .next t → t.phase = .error →
    t = { s with
      host := hs
      phase := .error
      errCode := t.errCode
      errExpected := t.errExpected
      errFound := t.errFound } ∧
    1 ≤ t.errCode.toNat ∧ t.errCode.toNat ≤ 7

/-- R234, R239, R240: in ERROR nothing but START and reset leaves the phase or changes the error registers. -/
def Obligations.OnlyStartAndResetLeaveError : Prop :=
  ∀ s t : State, s.phase = .error → step s = .next t →
    s.host.head? ≠ some .start → s.host.head? ≠ some .reset →
    t.phase = .error ∧ t.errCode = s.errCode ∧ t.errExpected = s.errExpected ∧ t.errFound = s.errFound ∧
    t.cursor = s.cursor ∧ t.outCount = s.outCount ∧ t.outMem = s.outMem

/-! ### Output packing (46_output_packing.md) -/

/-- R205, R206, R211: in DONE the result is `4 * PIXEL_COUNT` bytes, pixel `i` as red, green, blue, alpha at
`4i .. 4i+3`; in no other phase is there a result. -/
def Obligations.ResultLayout : Prop :=
  ∀ s : State,
    (s.phase ≠ .done → s.result = none) ∧
    (s.phase = .done → ∃ bytes, s.result = some bytes ∧ bytes.length = 4 * s.pixelCount.toNat ∧
      ∀ i, i < s.pixelCount.toNat →
        bytes[4 * i]? = some (s.outPixel i).r ∧ bytes[4 * i + 1]? = some (s.outPixel i).g ∧
        bytes[4 * i + 2]? = some (s.outPixel i).b ∧ bytes[4 * i + 3]? = some (s.outPixel i).a)

/-- R208, R209: pixels to bytes and back is the identity for any length, zero included, and so is bytes to pixels
and back for a length divisible by 4; other lengths have no pixel reading. -/
def Obligations.PackingRoundTrip : Prop :=
  (∀ ps : List Pixel, bytesToPixels (pixelsToBytes ps) = some ps ∧ (pixelsToBytes ps).length = 4 * ps.length) ∧
  (∀ bs : List Byte, bs.length % 4 = 0 → ∃ ps, bytesToPixels bs = some ps ∧ pixelsToBytes ps = bs) ∧
  (∀ bs : List Byte, bs.length % 4 ≠ 0 → bytesToPixels bs = none)

/-! ### Whole decodes -/

/-- R161, R230, R279: from START, on any input and from any state left behind, `BODY_LEN + 3` steps end in DONE
or in ERROR (with `BODY_LEN = IN_LEN - 22`, or 0 for a shorter input), and in none of them is there a fault. -/
def Obligations.EveryDecodeEnds : Prop :=
  ∀ s : State, s.host = [.start] → ¬ (s.phase = .header ∨ s.phase = .body) →
    ∃ t : State, runSteps (s.inLen - 22 + 3) s = .next t ∧
      (t.phase = .done ∨ (t.phase = .error ∧ 1 ≤ t.errCode.toNat ∧ t.errCode.toNat ≤ 8))

/-- R160: a START and then the block's own steps compute the whole-decode function of R160. -/
def Obligations.StepsComputeTheWholeDecode : Prop :=
  ∀ s : State, s.host = [.start] → ¬ (s.phase = .header ∨ s.phase = .body) →
    runSteps (s.inLen - 22 + 3) s = wholeDecode Config.params { s with host := [] }

/-- R241, R23: nothing of an earlier decode can influence a later one: two blocks in any states, started on the
same input bytes, agree after every number of steps in every register and in all output written so far. -/
def Obligations.NothingCarriesOver : Prop :=
  ∀ (k : Nat) (s t : State), s.host = [.start] → t.host = [.start] →
    ¬ (s.phase = .header ∨ s.phase = .body) → ¬ (t.phase = .header ∨ t.phase = .body) →
    s.inLen = t.inLen → (∀ a, a < s.inLen → s.inByte a = t.inByte a) →
    OutcomeRel SameDecode (runSteps (k + 1) s) (runSteps (k + 1) t)

/-- R211, R160, R64 (DOC0's first property, 95_test_vectors.md T1): for every well-formed token stream whose pixels are
as many as the header declares, the decode of the container ends in DONE and its result is exactly the
bytes of the stream's pixels. -/
def Obligations.DecodeReproducesTheStream : Prop :=
  ∀ (w h : BitVec 32) (ch cs : Byte) (is : List Instr) (s : State),
    (ch = 3 ∨ ch = 4) → (cs = 0 ∨ cs = 1) → (∀ i ∈ is, i.WellFormed = true) →
    s.host = [.start] → ¬ (s.phase = .header ∨ s.phase = .body) →
    s.inLen = (imageBytes w h ch cs (is.flatMap encode)).length →
    s.inBytes 0 s.inLen = imageBytes w h ch cs (is.flatMap encode) →
    (streamPixels ⟨0, 0, 0, 255⟩ firstCache is).length = w.toNat * h.toNat →
    ∃ t : State, runSteps (is.length + 3) s = .next t ∧ t.phase = .done ∧
      t.result = some (pixelsToBytes (streamPixels ⟨0, 0, 0, 255⟩ firstCache is)) ∧
      t.width = w ∧ t.height = h ∧ t.channels = ch ∧ t.colorspace = cs

/-- R158, R152, R228: a well-formed token stream whose pixels are not as many as the header declares ends in ERROR
with E_SIZE_MISMATCH and PIXEL_COUNT as the expected value. -/
def Obligations.WrongPixelCountIsAnError : Prop :=
  ∀ (w h : BitVec 32) (ch cs : Byte) (is : List Instr) (s : State),
    (ch = 3 ∨ ch = 4) → (cs = 0 ∨ cs = 1) → (∀ i ∈ is, i.WellFormed = true) →
    s.host = [.start] → ¬ (s.phase = .header ∨ s.phase = .body) →
    s.inLen = (imageBytes w h ch cs (is.flatMap encode)).length →
    s.inBytes 0 s.inLen = imageBytes w h ch cs (is.flatMap encode) →
    (streamPixels ⟨0, 0, 0, 255⟩ firstCache is).length ≠ w.toNat * h.toNat →
    ∃ t : State, runSteps (is.length + 3) s = .next t ∧ t.phase = .error ∧
      t.errCode = 7 ∧ t.errExpected.toNat = w.toNat * h.toNat
end

