-- ==== Sys2Proof/Laws/PerInstr.lean ====
section
/-! SUPPORT. A statement about each token as it is encoded, one lemma per constructor: its bytes are as many as
its length says, and the first of them is a tag that tells that length (30_encoding.md R84, R88). -/

namespace Sys2Proof.Laws.EncodedLength

/-- The encoding has the token's length, between 1 and 5 bytes, and its tag tells that length. -/
def Statement (i : Instr) : Prop :=
  i.WellFormed = true →
    (encode i).length = i.length ∧ 1 ≤ i.length ∧ i.length ≤ 5 ∧
    ∃ t bs, encode i = t :: bs ∧ tokenLength t = i.length

theorem tag_index : ∀ i : BitVec 6, tokenLength (0b00#2 ++ i) = 1 := by decide

theorem tag_diff : ∀ r g b : BitVec 2, tokenLength (0b01#2 ++ r ++ g ++ b) = 1 := by decide

theorem tag_luma : ∀ g : BitVec 6, tokenLength (0b10#2 ++ g) = 2 := by decide

theorem tag_run : ∀ n : BitVec 6, n.toNat ≤ 61 → tokenLength (0b11#2 ++ n) = 1 := by decide

theorem rgb (r g b : Byte) : Statement (.rgb r g b) := fun _ =>
  ⟨rfl, by simp [Instr.length], by simp [Instr.length], _, _, rfl, rfl⟩

theorem rgba (r g b a : Byte) : Statement (.rgba r g b a) := fun _ =>
  ⟨rfl, by simp [Instr.length], by simp [Instr.length], _, _, rfl, rfl⟩

theorem index (i : BitVec 6) : Statement (.index i) := fun _ =>
  ⟨rfl, by simp [Instr.length], by simp [Instr.length], _, _, rfl, tag_index i⟩

theorem diff (r g b : BitVec 2) : Statement (.diff r g b) := fun _ =>
  ⟨rfl, by simp [Instr.length], by simp [Instr.length], _, _, rfl, tag_diff r g b⟩

theorem luma (g : BitVec 6) (r b : BitVec 4) : Statement (.luma g r b) := fun _ =>
  ⟨rfl, by simp [Instr.length], by simp [Instr.length], _, _, rfl, tag_luma g⟩

theorem run (n : BitVec 6) : Statement (.run n) := fun h =>
  ⟨rfl, by simp [Instr.length], by simp [Instr.length], _, _, rfl,
    tag_run n (by simpa [Instr.WellFormed] using h)⟩

end Sys2Proof.Laws.EncodedLength
end

