-- ==== Sys2Proof/Laws/Decode.lean ====
section
/-! SUPPORT. What the decoder does with a whole token, and what classify says of an encoded tag. -/

namespace Sys2Proof

/-- A tag with all its trailing bytes is a token, whatever follows. -/
theorem decode_whole {t : Byte} {bs : List Byte} (rest : List Byte) (h : tokenLength t = bs.length + 1) :
    decode (t :: (bs ++ rest)) = .ok (tokenOf t (bs ++ rest)) rest := by
  rw [decode, if_neg (by rw [h, List.length_append]; omega), h, Nat.add_sub_cancel, List.drop_left]

/-- The kind tells the length. -/
theorem tokenLength_of_kind : ∀ t : Byte, tokenLength t =
    match (classify t).1 with
    | .rgb => 4
    | .rgba => 5
    | .index => 1
    | .diff => 1
    | .luma => 2
    | .run => 1 := by decide

theorem tokenLength_bounds : ∀ t : Byte, 1 ≤ tokenLength t ∧ tokenLength t ≤ 5 := by decide

theorem classify_index : ∀ i : BitVec 6,
    (classify (0b00#2 ++ i)).1 = .index ∧ payload (0b00#2 ++ i) = i := by decide

theorem classify_diff : ∀ r g b : BitVec 2,
    (classify (0b01#2 ++ r ++ g ++ b)).1 = .diff ∧
    (0b01#2 ++ r ++ g ++ b : BitVec 8).extractLsb' 4 2 = r ∧
    (0b01#2 ++ r ++ g ++ b : BitVec 8).extractLsb' 2 2 = g ∧
    (0b01#2 ++ r ++ g ++ b : BitVec 8).extractLsb' 0 2 = b := by decide

theorem classify_luma : ∀ g : BitVec 6,
    (classify (0b10#2 ++ g)).1 = .luma ∧ payload (0b10#2 ++ g) = g := by decide

theorem nibbles : ∀ r b : BitVec 4,
    (r ++ b : BitVec 8).extractLsb' 4 4 = r ∧ (r ++ b : BitVec 8).extractLsb' 0 4 = b := by decide

theorem classify_run : ∀ n : BitVec 6, n.toNat ≤ 61 →
    (classify (0b11#2 ++ n)).1 = .run ∧ payload (0b11#2 ++ n) = n := by decide

/-- The trailing bytes beyond the token's own are not looked at. -/
theorem tokenOf_append (t : Byte) {bs : List Byte} (rest : List Byte) (h : tokenLength t ≤ bs.length + 1) :
    tokenOf t (bs ++ rest) = tokenOf t bs := by
  rw [tokenLength_of_kind] at h
  simp only [tokenOf]
  split <;> rename_i hk <;> simp only [hk] at h
  · simp only [List.getD_eq_getElem?_getD]
    rw [List.getElem?_append_left (by omega), List.getElem?_append_left (by omega),
      List.getElem?_append_left (by omega)]
  · simp only [List.getD_eq_getElem?_getD]
    rw [List.getElem?_append_left (by omega), List.getElem?_append_left (by omega),
      List.getElem?_append_left (by omega), List.getElem?_append_left (by omega)]
  · rfl
  · rfl
  · simp only [List.getD_eq_getElem?_getD]
    rw [List.getElem?_append_left (by omega)]
  · rfl

end Sys2Proof
end

