-- ==== Sys2Proof/Laws/Memory.lean ====
section
/-! SUPPORT. The laws of the byte memories: read after write, and that every operation keeps the canonical
form. -/

namespace Sys2Proof.Machine

/-- A read after a write of one byte. -/
theorem Memory.read_write (m : Memory) (k : Nat) (v : Byte) (j : Nat) :
    (m.write k v).read j = if j = k then some v else m.read j := by
  induction m with
  | nil => simp only [Memory.write, Memory.read, eq_comm]
  | cons cell m ih =>
    obtain ⟨a, b⟩ := cell
    simp only [Memory.write]
    split
    · simp only [Memory.read, eq_comm]
    · split
      · subst a
        simp only [Memory.read, eq_comm]
        split <;> rfl
      · simp only [Memory.read, ih]
        split
        · rw [if_neg (by omega)]
        · rfl

/-- A read after a write of several bytes. -/
theorem Memory.read_writeBytes (vs : List Byte) (m : Memory) (k j : Nat) :
    (m.writeBytes k vs).read j = if k ≤ j ∧ j < k + vs.length then vs[j - k]? else m.read j := by
  induction vs generalizing m k with
  | nil => simp only [Memory.writeBytes, List.length_nil]; rw [if_neg (by omega)]
  | cons v vs ih =>
    simp only [Memory.writeBytes, ih, Memory.read_write, List.length_cons]
    rcases Nat.lt_trichotomy j k with h | h | h
    · rw [if_neg (by omega), if_neg (by omega), if_neg (by omega)]
    · subst h
      rw [if_neg (by omega), if_pos rfl, if_pos (by omega)]
      simp
    · obtain ⟨d, rfl⟩ : ∃ d, j = k + 1 + d := ⟨j - (k + 1), by omega⟩
      have e1 : k + 1 + d - (k + 1) = d := by omega
      have e2 : k + 1 + d - k = d + 1 := by omega
      have c : (k + 1 ≤ k + 1 + d ∧ k + 1 + d < k + 1 + vs.length) ↔
          (k ≤ k + 1 + d ∧ k + 1 + d < k + (vs.length + 1)) := by omega
      rw [e1, e2, if_neg (by omega : ¬ k + 1 + d = k)]
      simp only [c, List.getElem?_cons_succ]

/-- Bytes outside the written range read as before. -/
theorem Memory.read_writeBytes_frame {vs : List Byte} {m : Memory} {k j : Nat}
    (h : j < k ∨ k + vs.length ≤ j) : (m.writeBytes k vs).read j = m.read j := by
  rw [Memory.read_writeBytes, if_neg (by omega)]

/-- The canonical form of a non-empty memory: the tail is canonical and its addresses are above the
head's. -/
theorem Memory.wf_cons (a : Nat) (b : Byte) (m : Memory) :
    Memory.wf ((a, b) :: m) = true ↔ m.wf = true ∧ ∀ c ∈ m.head?, a < c.1 := by
  cases m with
  | nil => simp [Memory.wf]
  | cons c m => simp [Memory.wf, and_comm]

/-- A write of one byte keeps the canonical form. -/
theorem Memory.wf_write {m : Memory} (h : m.wf = true) (k : Nat) (v : Byte) : (m.write k v).wf = true := by
  induction m with
  | nil => rfl
  | cons cell m ih =>
    obtain ⟨a, b⟩ := cell
    have ht := (Memory.wf_cons a b m).1 h
    simp only [Memory.write]
    split
    · exact (Memory.wf_cons k v _).2 ⟨h, by simpa using ‹k < a›⟩
    · split
      · subst a; exact (Memory.wf_cons k v m).2 ht
      · refine (Memory.wf_cons a b _).2 ⟨ih ht.1, ?_⟩
        cases m with
        | nil => simp only [Memory.write, List.head?_cons, Option.mem_def, Option.some.injEq]; rintro c rfl; simp; omega
        | cons c m =>
          obtain ⟨c, d⟩ := c
          have hc : a < c := by simpa using ht.2 (c, d) (by simp)
          simp only [Memory.write]
          split
          · simp; omega
          · split
            · simp; omega
            · simpa using hc

/-- A write of several bytes keeps the canonical form. -/
theorem Memory.wf_writeBytes (vs : List Byte) {m : Memory} (h : m.wf = true) (k : Nat) :
    (m.writeBytes k vs).wf = true := by
  induction vs generalizing m k with
  | nil => exact h
  | cons v vs ih => exact ih (Memory.wf_write h k v) (k + 1)

end Sys2Proof.Machine
end

