-- ==== Sys2Proof/Laws/State.lean ====
section
/-! SUPPORT. What each update of the state does to each field, true by rfl. -/

namespace Sys2Proof.Machine

/-! ### raise -/

@[simp] theorem raise_prev (e : DecodeError) (s : State) :
    (raise e s).prev = s.prev := rfl
@[simp] theorem raise_cache (e : DecodeError) (s : State) :
    (raise e s).cache = s.cache := rfl
@[simp] theorem raise_cursor (e : DecodeError) (s : State) :
    (raise e s).cursor = s.cursor := rfl
@[simp] theorem raise_outCount (e : DecodeError) (s : State) :
    (raise e s).outCount = s.outCount := rfl
@[simp] theorem raise_inLen (e : DecodeError) (s : State) :
    (raise e s).inLen = s.inLen := rfl
@[simp] theorem raise_width (e : DecodeError) (s : State) :
    (raise e s).width = s.width := rfl
@[simp] theorem raise_height (e : DecodeError) (s : State) :
    (raise e s).height = s.height := rfl
@[simp] theorem raise_channels (e : DecodeError) (s : State) :
    (raise e s).channels = s.channels := rfl
@[simp] theorem raise_colorspace (e : DecodeError) (s : State) :
    (raise e s).colorspace = s.colorspace := rfl
@[simp] theorem raise_pixelCount (e : DecodeError) (s : State) :
    (raise e s).pixelCount = s.pixelCount := rfl
@[simp] theorem raise_bodyLen (e : DecodeError) (s : State) :
    (raise e s).bodyLen = s.bodyLen := rfl
@[simp] theorem raise_phase (e : DecodeError) (s : State) :
    (raise e s).phase = .error := rfl
@[simp] theorem raise_errCode (e : DecodeError) (s : State) :
    (raise e s).errCode = e.code := rfl
@[simp] theorem raise_errExpected (e : DecodeError) (s : State) :
    (raise e s).errExpected = BitVec.ofNat 64 e.expected := rfl
@[simp] theorem raise_errFound (e : DecodeError) (s : State) :
    (raise e s).errFound = BitVec.ofNat 64 e.found := rfl
@[simp] theorem raise_inMem (e : DecodeError) (s : State) :
    (raise e s).inMem = s.inMem := rfl
@[simp] theorem raise_outMem (e : DecodeError) (s : State) :
    (raise e s).outMem = s.outMem := rfl
@[simp] theorem raise_host (e : DecodeError) (s : State) :
    (raise e s).host = s.host := rfl
@[simp] theorem raise_resets (e : DecodeError) (s : State) :
    (raise e s).resets = s.resets := rfl

/-! ### insert -/

@[simp] theorem insert_prev (p : Pixel) (s : State) :
    (insert p s).prev = s.prev := rfl
@[simp] theorem insert_cache (p : Pixel) (s : State) :
    (insert p s).cache = cacheInsert s.cache p := rfl
@[simp] theorem insert_cursor (p : Pixel) (s : State) :
    (insert p s).cursor = s.cursor := rfl
@[simp] theorem insert_outCount (p : Pixel) (s : State) :
    (insert p s).outCount = s.outCount := rfl
@[simp] theorem insert_inLen (p : Pixel) (s : State) :
    (insert p s).inLen = s.inLen := rfl
@[simp] theorem insert_width (p : Pixel) (s : State) :
    (insert p s).width = s.width := rfl
@[simp] theorem insert_height (p : Pixel) (s : State) :
    (insert p s).height = s.height := rfl
@[simp] theorem insert_channels (p : Pixel) (s : State) :
    (insert p s).channels = s.channels := rfl
@[simp] theorem insert_colorspace (p : Pixel) (s : State) :
    (insert p s).colorspace = s.colorspace := rfl
@[simp] theorem insert_pixelCount (p : Pixel) (s : State) :
    (insert p s).pixelCount = s.pixelCount := rfl
@[simp] theorem insert_bodyLen (p : Pixel) (s : State) :
    (insert p s).bodyLen = s.bodyLen := rfl
@[simp] theorem insert_phase (p : Pixel) (s : State) :
    (insert p s).phase = s.phase := rfl
@[simp] theorem insert_errCode (p : Pixel) (s : State) :
    (insert p s).errCode = s.errCode := rfl
@[simp] theorem insert_errExpected (p : Pixel) (s : State) :
    (insert p s).errExpected = s.errExpected := rfl
@[simp] theorem insert_errFound (p : Pixel) (s : State) :
    (insert p s).errFound = s.errFound := rfl
@[simp] theorem insert_inMem (p : Pixel) (s : State) :
    (insert p s).inMem = s.inMem := rfl
@[simp] theorem insert_outMem (p : Pixel) (s : State) :
    (insert p s).outMem = s.outMem := rfl
@[simp] theorem insert_host (p : Pixel) (s : State) :
    (insert p s).host = s.host := rfl
@[simp] theorem insert_resets (p : Pixel) (s : State) :
    (insert p s).resets = s.resets := rfl

/-! ### emit -/

@[simp] theorem emit_prev (p : Pixel) (s : State) :
    (emit p s).prev = s.prev := rfl
@[simp] theorem emit_cache (p : Pixel) (s : State) :
    (emit p s).cache = s.cache := rfl
@[simp] theorem emit_cursor (p : Pixel) (s : State) :
    (emit p s).cursor = s.cursor := rfl
@[simp] theorem emit_outCount (p : Pixel) (s : State) :
    (emit p s).outCount = s.outCount + 1 := rfl
@[simp] theorem emit_inLen (p : Pixel) (s : State) :
    (emit p s).inLen = s.inLen := rfl
@[simp] theorem emit_width (p : Pixel) (s : State) :
    (emit p s).width = s.width := rfl
@[simp] theorem emit_height (p : Pixel) (s : State) :
    (emit p s).height = s.height := rfl
@[simp] theorem emit_channels (p : Pixel) (s : State) :
    (emit p s).channels = s.channels := rfl
@[simp] theorem emit_colorspace (p : Pixel) (s : State) :
    (emit p s).colorspace = s.colorspace := rfl
@[simp] theorem emit_pixelCount (p : Pixel) (s : State) :
    (emit p s).pixelCount = s.pixelCount := rfl
@[simp] theorem emit_bodyLen (p : Pixel) (s : State) :
    (emit p s).bodyLen = s.bodyLen := rfl
@[simp] theorem emit_phase (p : Pixel) (s : State) :
    (emit p s).phase = s.phase := rfl
@[simp] theorem emit_errCode (p : Pixel) (s : State) :
    (emit p s).errCode = s.errCode := rfl
@[simp] theorem emit_errExpected (p : Pixel) (s : State) :
    (emit p s).errExpected = s.errExpected := rfl
@[simp] theorem emit_errFound (p : Pixel) (s : State) :
    (emit p s).errFound = s.errFound := rfl
@[simp] theorem emit_inMem (p : Pixel) (s : State) :
    (emit p s).inMem = s.inMem := rfl
@[simp] theorem emit_outMem (p : Pixel) (s : State) :
    (emit p s).outMem = s.outMem.writeBytes (4 * s.outCount.toNat) (pixelBytes p) := rfl
@[simp] theorem emit_host (p : Pixel) (s : State) :
    (emit p s).host = s.host := rfl
@[simp] theorem emit_resets (p : Pixel) (s : State) :
    (emit p s).resets = s.resets := rfl

/-! ### setPrev -/

@[simp] theorem setPrev_prev (p : Pixel) (s : State) :
    (setPrev p s).prev = p := rfl
@[simp] theorem setPrev_cache (p : Pixel) (s : State) :
    (setPrev p s).cache = s.cache := rfl
@[simp] theorem setPrev_cursor (p : Pixel) (s : State) :
    (setPrev p s).cursor = s.cursor := rfl
@[simp] theorem setPrev_outCount (p : Pixel) (s : State) :
    (setPrev p s).outCount = s.outCount := rfl
@[simp] theorem setPrev_inLen (p : Pixel) (s : State) :
    (setPrev p s).inLen = s.inLen := rfl
@[simp] theorem setPrev_width (p : Pixel) (s : State) :
    (setPrev p s).width = s.width := rfl
@[simp] theorem setPrev_height (p : Pixel) (s : State) :
    (setPrev p s).height = s.height := rfl
@[simp] theorem setPrev_channels (p : Pixel) (s : State) :
    (setPrev p s).channels = s.channels := rfl
@[simp] theorem setPrev_colorspace (p : Pixel) (s : State) :
    (setPrev p s).colorspace = s.colorspace := rfl
@[simp] theorem setPrev_pixelCount (p : Pixel) (s : State) :
    (setPrev p s).pixelCount = s.pixelCount := rfl
@[simp] theorem setPrev_bodyLen (p : Pixel) (s : State) :
    (setPrev p s).bodyLen = s.bodyLen := rfl
@[simp] theorem setPrev_phase (p : Pixel) (s : State) :
    (setPrev p s).phase = s.phase := rfl
@[simp] theorem setPrev_errCode (p : Pixel) (s : State) :
    (setPrev p s).errCode = s.errCode := rfl
@[simp] theorem setPrev_errExpected (p : Pixel) (s : State) :
    (setPrev p s).errExpected = s.errExpected := rfl
@[simp] theorem setPrev_errFound (p : Pixel) (s : State) :
    (setPrev p s).errFound = s.errFound := rfl
@[simp] theorem setPrev_inMem (p : Pixel) (s : State) :
    (setPrev p s).inMem = s.inMem := rfl
@[simp] theorem setPrev_outMem (p : Pixel) (s : State) :
    (setPrev p s).outMem = s.outMem := rfl
@[simp] theorem setPrev_host (p : Pixel) (s : State) :
    (setPrev p s).host = s.host := rfl
@[simp] theorem setPrev_resets (p : Pixel) (s : State) :
    (setPrev p s).resets = s.resets := rfl

/-! ### advance -/

@[simp] theorem advance_prev (len : Nat) (s : State) :
    (advance len s).prev = s.prev := rfl
@[simp] theorem advance_cache (len : Nat) (s : State) :
    (advance len s).cache = s.cache := rfl
@[simp] theorem advance_cursor (len : Nat) (s : State) :
    (advance len s).cursor = s.cursor + len := rfl
@[simp] theorem advance_outCount (len : Nat) (s : State) :
    (advance len s).outCount = s.outCount := rfl
@[simp] theorem advance_inLen (len : Nat) (s : State) :
    (advance len s).inLen = s.inLen := rfl
@[simp] theorem advance_width (len : Nat) (s : State) :
    (advance len s).width = s.width := rfl
@[simp] theorem advance_height (len : Nat) (s : State) :
    (advance len s).height = s.height := rfl
@[simp] theorem advance_channels (len : Nat) (s : State) :
    (advance len s).channels = s.channels := rfl
@[simp] theorem advance_colorspace (len : Nat) (s : State) :
    (advance len s).colorspace = s.colorspace := rfl
@[simp] theorem advance_pixelCount (len : Nat) (s : State) :
    (advance len s).pixelCount = s.pixelCount := rfl
@[simp] theorem advance_bodyLen (len : Nat) (s : State) :
    (advance len s).bodyLen = s.bodyLen := rfl
@[simp] theorem advance_phase (len : Nat) (s : State) :
    (advance len s).phase = s.phase := rfl
@[simp] theorem advance_errCode (len : Nat) (s : State) :
    (advance len s).errCode = s.errCode := rfl
@[simp] theorem advance_errExpected (len : Nat) (s : State) :
    (advance len s).errExpected = s.errExpected := rfl
@[simp] theorem advance_errFound (len : Nat) (s : State) :
    (advance len s).errFound = s.errFound := rfl
@[simp] theorem advance_inMem (len : Nat) (s : State) :
    (advance len s).inMem = s.inMem := rfl
@[simp] theorem advance_outMem (len : Nat) (s : State) :
    (advance len s).outMem = s.outMem := rfl
@[simp] theorem advance_host (len : Nat) (s : State) :
    (advance len s).host = s.host := rfl
@[simp] theorem advance_resets (len : Nat) (s : State) :
    (advance len s).resets = s.resets := rfl

/-! ### startStep -/

@[simp] theorem startStep_prev (s : State) :
    (startStep s).prev = prevInit := rfl
@[simp] theorem startStep_cache (s : State) :
    (startStep s).cache = cacheInit := rfl
@[simp] theorem startStep_cursor (s : State) :
    (startStep s).cursor = 0 := rfl
@[simp] theorem startStep_outCount (s : State) :
    (startStep s).outCount = 0 := rfl
@[simp] theorem startStep_inLen (s : State) :
    (startStep s).inLen = s.inLen := rfl
@[simp] theorem startStep_width (s : State) :
    (startStep s).width = 0 := rfl
@[simp] theorem startStep_height (s : State) :
    (startStep s).height = 0 := rfl
@[simp] theorem startStep_channels (s : State) :
    (startStep s).channels = 0 := rfl
@[simp] theorem startStep_colorspace (s : State) :
    (startStep s).colorspace = 0 := rfl
@[simp] theorem startStep_pixelCount (s : State) :
    (startStep s).pixelCount = 0 := rfl
@[simp] theorem startStep_bodyLen (s : State) :
    (startStep s).bodyLen = 0 := rfl
@[simp] theorem startStep_phase (s : State) :
    (startStep s).phase = .header := rfl
@[simp] theorem startStep_errCode (s : State) :
    (startStep s).errCode = 0 := rfl
@[simp] theorem startStep_errExpected (s : State) :
    (startStep s).errExpected = 0 := rfl
@[simp] theorem startStep_errFound (s : State) :
    (startStep s).errFound = 0 := rfl
@[simp] theorem startStep_inMem (s : State) :
    (startStep s).inMem = s.inMem := rfl
@[simp] theorem startStep_outMem (s : State) :
    (startStep s).outMem = s.outMem := rfl
@[simp] theorem startStep_host (s : State) :
    (startStep s).host = s.host := rfl
@[simp] theorem startStep_resets (s : State) :
    (startStep s).resets = s.resets := rfl

/-! ### acceptHeader -/

@[simp] theorem acceptHeader_prev (w h : BitVec 32) (ch cs : Byte) (s : State) :
    (acceptHeader w h ch cs s).prev = s.prev := rfl
@[simp] theorem acceptHeader_cache (w h : BitVec 32) (ch cs : Byte) (s : State) :
    (acceptHeader w h ch cs s).cache = s.cache := rfl
@[simp] theorem acceptHeader_cursor (w h : BitVec 32) (ch cs : Byte) (s : State) :
    (acceptHeader w h ch cs s).cursor = 0 := rfl
@[simp] theorem acceptHeader_outCount (w h : BitVec 32) (ch cs : Byte) (s : State) :
    (acceptHeader w h ch cs s).outCount = s.outCount := rfl
@[simp] theorem acceptHeader_inLen (w h : BitVec 32) (ch cs : Byte) (s : State) :
    (acceptHeader w h ch cs s).inLen = s.inLen := rfl
@[simp] theorem acceptHeader_width (w h : BitVec 32) (ch cs : Byte) (s : State) :
    (acceptHeader w h ch cs s).width = w := rfl
@[simp] theorem acceptHeader_height (w h : BitVec 32) (ch cs : Byte) (s : State) :
    (acceptHeader w h ch cs s).height = h := rfl
@[simp] theorem acceptHeader_channels (w h : BitVec 32) (ch cs : Byte) (s : State) :
    (acceptHeader w h ch cs s).channels = ch := rfl
@[simp] theorem acceptHeader_colorspace (w h : BitVec 32) (ch cs : Byte) (s : State) :
    (acceptHeader w h ch cs s).colorspace = cs := rfl
@[simp] theorem acceptHeader_pixelCount (w h : BitVec 32) (ch cs : Byte) (s : State) :
    (acceptHeader w h ch cs s).pixelCount = BitVec.ofNat 64 (w.toNat * h.toNat) := rfl
@[simp] theorem acceptHeader_bodyLen (w h : BitVec 32) (ch cs : Byte) (s : State) :
    (acceptHeader w h ch cs s).bodyLen = s.inLen - minInput := rfl
@[simp] theorem acceptHeader_phase (w h : BitVec 32) (ch cs : Byte) (s : State) :
    (acceptHeader w h ch cs s).phase = .body := rfl
@[simp] theorem acceptHeader_errCode (w h : BitVec 32) (ch cs : Byte) (s : State) :
    (acceptHeader w h ch cs s).errCode = s.errCode := rfl
@[simp] theorem acceptHeader_errExpected (w h : BitVec 32) (ch cs : Byte) (s : State) :
    (acceptHeader w h ch cs s).errExpected = s.errExpected := rfl
@[simp] theorem acceptHeader_errFound (w h : BitVec 32) (ch cs : Byte) (s : State) :
    (acceptHeader w h ch cs s).errFound = s.errFound := rfl
@[simp] theorem acceptHeader_inMem (w h : BitVec 32) (ch cs : Byte) (s : State) :
    (acceptHeader w h ch cs s).inMem = s.inMem := rfl
@[simp] theorem acceptHeader_outMem (w h : BitVec 32) (ch cs : Byte) (s : State) :
    (acceptHeader w h ch cs s).outMem = s.outMem := rfl
@[simp] theorem acceptHeader_host (w h : BitVec 32) (ch cs : Byte) (s : State) :
    (acceptHeader w h ch cs s).host = s.host := rfl
@[simp] theorem acceptHeader_resets (w h : BitVec 32) (ch cs : Byte) (s : State) :
    (acceptHeader w h ch cs s).resets = s.resets := rfl

/-! ### withHost -/

@[simp] theorem withHost_prev (hs : List HostMove) (s : State) :
    (s.withHost hs).prev = s.prev := rfl
@[simp] theorem withHost_cache (hs : List HostMove) (s : State) :
    (s.withHost hs).cache = s.cache := rfl
@[simp] theorem withHost_cursor (hs : List HostMove) (s : State) :
    (s.withHost hs).cursor = s.cursor := rfl
@[simp] theorem withHost_outCount (hs : List HostMove) (s : State) :
    (s.withHost hs).outCount = s.outCount := rfl
@[simp] theorem withHost_inLen (hs : List HostMove) (s : State) :
    (s.withHost hs).inLen = s.inLen := rfl
@[simp] theorem withHost_width (hs : List HostMove) (s : State) :
    (s.withHost hs).width = s.width := rfl
@[simp] theorem withHost_height (hs : List HostMove) (s : State) :
    (s.withHost hs).height = s.height := rfl
@[simp] theorem withHost_channels (hs : List HostMove) (s : State) :
    (s.withHost hs).channels = s.channels := rfl
@[simp] theorem withHost_colorspace (hs : List HostMove) (s : State) :
    (s.withHost hs).colorspace = s.colorspace := rfl
@[simp] theorem withHost_pixelCount (hs : List HostMove) (s : State) :
    (s.withHost hs).pixelCount = s.pixelCount := rfl
@[simp] theorem withHost_bodyLen (hs : List HostMove) (s : State) :
    (s.withHost hs).bodyLen = s.bodyLen := rfl
@[simp] theorem withHost_phase (hs : List HostMove) (s : State) :
    (s.withHost hs).phase = s.phase := rfl
@[simp] theorem withHost_errCode (hs : List HostMove) (s : State) :
    (s.withHost hs).errCode = s.errCode := rfl
@[simp] theorem withHost_errExpected (hs : List HostMove) (s : State) :
    (s.withHost hs).errExpected = s.errExpected := rfl
@[simp] theorem withHost_errFound (hs : List HostMove) (s : State) :
    (s.withHost hs).errFound = s.errFound := rfl
@[simp] theorem withHost_inMem (hs : List HostMove) (s : State) :
    (s.withHost hs).inMem = s.inMem := rfl
@[simp] theorem withHost_outMem (hs : List HostMove) (s : State) :
    (s.withHost hs).outMem = s.outMem := rfl
@[simp] theorem withHost_host (hs : List HostMove) (s : State) :
    (s.withHost hs).host = hs := rfl
@[simp] theorem withHost_resets (hs : List HostMove) (s : State) :
    (s.withHost hs).resets = s.resets := rfl
@[simp] theorem withHost_inByte (hs : List HostMove) (s : State) (a : Nat) :
    (s.withHost hs).inByte a = s.inByte a := rfl
@[simp] theorem withHost_outByte (hs : List HostMove) (s : State) (a : Nat) :
    (s.withHost hs).outByte a = s.outByte a := rfl
@[simp] theorem withHost_inBytes (hs : List HostMove) (s : State) (a n : Nat) :
    (s.withHost hs).inBytes a n = s.inBytes a n := rfl
@[simp] theorem withHost_busy (hs : List HostMove) (s : State) : (s.withHost hs).busy = s.busy := rfl
theorem withHost_self (s : State) : s.withHost s.host = s := rfl

end Sys2Proof.Machine
end

