-- ==== Sys2Proof/Laws/Ops.lean ====
section
/-! SUPPORT. One lemma per shared operation that says everything it can do: reading `IN`, emitting, the
capacity check and the commit of a token. -/

namespace Sys2Proof.Machine

/-! ### Reading `IN` -/

/-- A read inside `IN_LEN` hands its bytes on. -/
theorem readIn_of_le {s : State} {addr n : Nat} (h : addr + n ≤ s.inLen)
    (k : List Byte → Host.Outcome State Fault Refusal) : readIn s addr n k = k (s.inBytes addr n) := by
  rw [readIn, if_pos h]

/-- A read answers a next state only inside `IN_LEN`. -/
theorem readIn_next {s t : State} {addr n : Nat} {k : List Byte → Host.Outcome State Fault Refusal}
    (h : readIn s addr n k = .next t) : addr + n ≤ s.inLen ∧ k (s.inBytes addr n) = .next t := by
  rw [readIn] at h
  split at h
  · exact ⟨‹_›, h⟩
  · cases h

@[simp] theorem inBytes_length (s : State) (addr n : Nat) : (s.inBytes addr n).length = n := by
  simp [State.inBytes]

@[simp] theorem inBytes_zero (s : State) (addr : Nat) : s.inBytes addr 0 = [] := rfl

theorem inBytes_succ (s : State) (addr n : Nat) :
    s.inBytes addr (n + 1) = s.inByte addr :: s.inBytes (addr + 1) n := by
  simp [State.inBytes, List.range_succ_eq_map, Nat.add_assoc, Nat.add_comm 1]

/-- Reading depends on `IN` and the free values only. -/
theorem inBytes_congr {s t : State} (hm : s.inMem = t.inMem) (hr : s.resets = t.resets) (addr n : Nat) :
    s.inBytes addr n = t.inBytes addr n := by
  simp only [State.inBytes, State.inByte, hm, hr]

/-! ### Emitting -/

@[simp] theorem pixelBytes_length (p : Pixel) : (pixelBytes p).length = 4 := rfl

/-- `OUT` after one emit. -/
theorem emit_read (p : Pixel) (s : State) (a : Nat) :
    (emit p s).outMem.read a =
      if 4 * s.outCount.toNat ≤ a ∧ a < 4 * s.outCount.toNat + 4 then
        (pixelBytes p)[a - 4 * s.outCount.toNat]?
      else s.outMem.read a := by
  rw [emit_outMem, Memory.read_writeBytes, pixelBytes_length]

/-- A run of emits writes `OUT` and `OUT_COUNT` and nothing else. -/
theorem emitRun_frame (n : Nat) (p : Pixel) (s : State) :
    emitRun n p s = { s with outMem := (emitRun n p s).outMem, outCount := (emitRun n p s).outCount } := by
  induction n generalizing s with
  | zero => rfl
  | succ n ih => rw [emitRun, ih]; rfl

@[simp] theorem emitRun_outCount (n : Nat) (p : Pixel) (s : State) :
    (emitRun n p s).outCount = s.outCount + BitVec.ofNat 64 n := by
  induction n generalizing s with
  | zero => simp [emitRun]
  | succ n ih =>
    rw [emitRun, ih, emit_outCount, BitVec.add_assoc, Nat.add_comm n 1, BitVec.ofNat_add]
    rfl

/-- A count that does not wrap. -/
theorem outCount_add_toNat {c : BitVec 64} {n : Nat} (h : c.toNat + n < 2 ^ 64) :
    (c + BitVec.ofNat 64 n).toNat = c.toNat + n := by
  rw [BitVec.toNat_add, BitVec.toNat_ofNat, Nat.add_mod_mod, Nat.mod_eq_of_lt h]

/-- `OUT` after a run of emits: `n` copies of the pixel, and everything else as before. -/
theorem emitRun_read {n : Nat} {s : State} (p : Pixel) (h : s.outCount.toNat + n < 2 ^ 64) (a : Nat) :
    (emitRun n p s).outMem.read a =
      if 4 * s.outCount.toNat ≤ a ∧ a < 4 * (s.outCount.toNat + n) then (pixelBytes p)[a % 4]?
      else s.outMem.read a := by
  induction n generalizing s with
  | zero => rw [emitRun, if_neg (by omega)]
  | succ n ih =>
    have hc : (emit p s).outCount.toNat = s.outCount.toNat + 1 := by
      rw [emit_outCount]; exact outCount_add_toNat (n := 1) (by omega)
    rw [emitRun, ih (by omega), hc, emit_read]
    by_cases h1 : 4 * (s.outCount.toNat + 1) ≤ a ∧ a < 4 * (s.outCount.toNat + 1 + n)
    · rw [if_pos h1, if_pos (by omega)]
    · rw [if_neg h1]
      by_cases h2 : 4 * s.outCount.toNat ≤ a ∧ a < 4 * s.outCount.toNat + 4
      · rw [if_pos h2, if_pos (by omega)]
        congr 1
        omega
      · rw [if_neg h2, if_neg (by omega)]

theorem emitRun_outWf (n : Nat) (p : Pixel) {s : State} (h : s.outMem.wf = true) :
    (emitRun n p s).outMem.wf = true := by
  induction n generalizing s with
  | zero => exact h
  | succ n ih => exact ih (Memory.wf_writeBytes _ h _)

/-! ### The color cache -/

theorem cacheGet_insert (cache : ColorCache) (p : Pixel) (i : Slot) :
    cacheGet (cacheInsert cache p) i = if pixelHash p = i then p else cacheGet cache i := by
  simp only [cacheGet, cacheInsert, Fin.getElem_fin, Vector.getElem_set, Fin.ext_iff]

/-! ### The capacity check and the commit -/

/-- Everything the capacity check can do. -/
theorem checked_cases (n : Nat) (f : State → State) (s : State) :
    (s.pixelCount.toNat < s.outCount.toNat + n ∧
      checked n f s = .next (raise (.sizeMismatch s.pixelCount.toNat (s.outCount.toNat + n)) s)) ∨
    (s.outCount.toNat + n ≤ s.pixelCount.toNat ∧ checked n f s = .next (f s)) := by
  rw [checked]
  split
  · exact .inl ⟨‹_›, rfl⟩
  · exact .inr ⟨by omega, rfl⟩

theorem checked_of_room {n : Nat} {s : State} (h : s.outCount.toNat + n ≤ s.pixelCount.toNat)
    (f : State → State) : checked n f s = .next (f s) := by
  rw [checked, if_neg (by omega)]

theorem checked_of_full {n : Nat} {s : State} (h : s.pixelCount.toNat < s.outCount.toNat + n)
    (f : State → State) :
    checked n f s = .next (raise (.sizeMismatch s.pixelCount.toNat (s.outCount.toNat + n)) s) := by
  rw [checked, if_pos h]

end Sys2Proof.Machine
end

