-- ==== Sys2Proof/Laws/Exec.lean ====
section
/-! SUPPORT. Every token in one form: the capacity check, then one description of the effects. -/

namespace Sys2Proof.Machine

/-- The pixel a token leaves in `PREV` (42_token_dispatch.md R154; RUN leaves it as it is). -/
def newPrev (i : Instr) (s : State) : Pixel :=
  match i with
  | .rgb r g b => ⟨r, g, b, s.prev.a⟩
  | .rgba r g b a => ⟨r, g, b, a⟩
  | .index k => cacheGet s.cache (indexSlot k)
  | .diff r g b => diffPixel s.prev r g b
  | .luma g r b => lumaPixel s.prev g r b
  | .run _ => s.prev

/-- The cache a token leaves (R155). -/
def newCache (i : Instr) (s : State) : ColorCache :=
  if insertsPixel i then cacheInsert s.cache (newPrev i s) else s.cache

/-- The effects of a token whose pixels fit (R153 to R156). -/
def tokenEffects (i : Instr) (s : State) : State :=
  { s with
    prev := newPrev i s
    cache := newCache i s
    cursor := s.cursor + i.length
    outCount := s.outCount + BitVec.ofNat 64 (pixelsProduced i)
    outMem := (emitRun (pixelsProduced i) (newPrev i s) s).outMem }

/-- A token is the capacity check and its effects. -/
theorem exec_eq (i : Instr) (s : State) : exec i s = checked (pixelsProduced i) (tokenEffects i) s := by
  cases i with
  | run n =>
    have h : advance 1 (emitRun (n.toNat + 1) s.prev s) = tokenEffects (.run n) s := by
      rw [emitRun_frame]
      simp [advance, tokenEffects, pixelsProduced, newPrev, newCache, insertsPixel, Instr.length]
    rw [checked, ← h]
    rfl
  | _ => rfl

theorem pixelsProduced_pos (i : Instr) : 1 ≤ pixelsProduced i := by
  cases i <;> simp [pixelsProduced]

theorem instr_length_pos (i : Instr) : 1 ≤ i.length := by
  cases i <;> simp [Instr.length]

/-- Everything a token can do: its effects when its pixels fit, else the size-mismatch error. -/
theorem exec_cases (i : Instr) (s : State) :
    (s.pixelCount.toNat < s.outCount.toNat + pixelsProduced i ∧
      exec i s = .next (raise (.sizeMismatch s.pixelCount.toNat (s.outCount.toNat + pixelsProduced i)) s)) ∨
    (s.outCount.toNat + pixelsProduced i ≤ s.pixelCount.toNat ∧ exec i s = .next (tokenEffects i s)) := by
  rw [exec_eq]
  exact checked_cases _ _ _

/-- A token whose pixels fit completes. -/
theorem exec_of_room {i : Instr} {s : State} (h : s.outCount.toNat + pixelsProduced i ≤ s.pixelCount.toNat) :
    exec i s = .next (tokenEffects i s) := by
  rw [exec_eq, checked_of_room h]

/-- `OUT_COUNT` after a token whose pixels fit. -/
theorem tokenEffects_outCount_toNat {i : Instr} {s : State}
    (h : s.outCount.toNat + pixelsProduced i ≤ s.pixelCount.toNat) :
    (tokenEffects i s).outCount.toNat = s.outCount.toNat + pixelsProduced i :=
  outCount_add_toNat (by have := s.pixelCount.isLt; omega)

/-- `OUT` after a token whose pixels fit: copies of the new `PREV`, and everything else as before. -/
theorem tokenEffects_read {i : Instr} {s : State}
    (h : s.outCount.toNat + pixelsProduced i ≤ s.pixelCount.toNat) (a : Nat) :
    (tokenEffects i s).outMem.read a =
      if 4 * s.outCount.toNat ≤ a ∧ a < 4 * (s.outCount.toNat + pixelsProduced i) then
        (pixelBytes (newPrev i s))[a % 4]?
      else s.outMem.read a :=
  emitRun_read _ (by have := s.pixelCount.isLt; omega) a

/-- The length of the token the decoder reads is the one its tag tells. -/
theorem tokenOf_length (t : Byte) (bs : List Byte) : (tokenOf t bs).length = tokenLength t := by
  simp only [tokenOf, tokenLength, classify]
  repeat' split
  all_goals simp_all [Instr.length]

/-- Where a token that fits puts its pixels. -/
theorem emits_effects {i : Instr} {s : State} (h : s.outCount.toNat + pixelsProduced i ≤ s.pixelCount.toNat) :
    Emits (pixelsProduced i) (newPrev i s) s (tokenEffects i s) := by
  refine ⟨tokenEffects_outCount_toNat h, fun k hk => ?_, fun a ha => ?_⟩
  · have r : ∀ j, j < 4 →
        (tokenEffects i s).outMem.read (4 * (s.outCount.toNat + k) + j) = (pixelBytes (newPrev i s))[j]? := by
      intro j hj
      rw [tokenEffects_read h, if_pos (by omega)]
      congr 1; omega
    have r0 := r 0 (by omega)
    have r1 := r 1 (by omega)
    have r2 := r 2 (by omega)
    have r3 := r 3 (by omega)
    simp only [State.outPixel, State.outByte]
    rw [Nat.add_zero] at r0
    rw [r0, r1, r2, r3]
    rfl
  · simp only [State.outByte]
    rw [tokenEffects_read h, if_neg (by omega)]
    rfl

/-- What an inserting token does to the cache. -/
theorem inserts_effects {i : Instr} {s : State} (h : insertsPixel i = true) :
    Inserts (newPrev i s) s (tokenEffects i s) := by
  intro k
  show cacheGet (newCache i s) k = _
  rw [newCache, if_pos h, cacheGet_insert]
  congr 1
  simp [Fin.ext_iff, pixelHash, hashSum, eq_comm]

/-- The pixels of a token, in the terms of its effects. -/
theorem tokenPixels_eq (i : Instr) (s : State) :
    tokenPixels s.prev (cacheGet s.cache) i = List.replicate (pixelsProduced i) (newPrev i s) := by
  cases i <;> rfl

/-- The last pixel of a token is what it leaves in `PREV`. -/
theorem tokenPixels_last (i : Instr) (s : State) :
    (tokenPixels s.prev (cacheGet s.cache) i).getLastD s.prev = newPrev i s := by
  rw [tokenPixels_eq]
  obtain ⟨n, hn⟩ : ∃ n, pixelsProduced i = n + 1 :=
    ⟨pixelsProduced i - 1, by have := pixelsProduced_pos i; omega⟩
  rw [hn]
  simp [List.getLastD_eq_getLast?, List.getLast?_replicate]

/-- The cache as a function after a token is the cache its effects leave. -/
theorem cacheAfter_eq (i : Instr) (s : State) :
    cacheAfter s.prev (cacheGet s.cache) i = cacheGet (newCache i s) := by
  funext k
  cases i <;> simp [cacheAfter, tokenPixels, insertsPixel, newCache, cacheGet_insert, newPrev]

end Sys2Proof.Machine
end

