-- ==== Sys2Proof/Laws/Step.lean ====
section
/-! SUPPORT. What each step can do, said once: the HEADER step, the TOKEN step, the block's own step, and a
step of block and host together. -/

namespace Sys2Proof.Machine

/-! ### HEADER -/

/-- The HEADER step on an input of at least 22 bytes, its reads carried out: no read can fault. -/
theorem headerStep_long (p : Config.Params) {s : State} (hl : 22 ≤ s.inLen) :
    headerStep p s = .next
      (if s.inBytes 0 4 ≠ magic then raise (.badMagic (bigEndian (s.inBytes 0 4))) s
       else if s.inBytes (s.inLen - 8) 8 ≠ trailer then
         raise (.badTrailer (bigEndian (s.inBytes (s.inLen - 8) 8))) s
       else if s.inByte 12 ≠ 3 ∧ s.inByte 12 ≠ 4 then raise (.badChannels (s.inByte 12)) s
       else if s.inByte 13 ≠ 0 ∧ s.inByte 13 ≠ 1 then raise (.badColorspace (s.inByte 13)) s
       else if p.maxPixels < (BitVec.ofNat 32 (bigEndian (s.inBytes 4 4))).toNat *
            (BitVec.ofNat 32 (bigEndian (s.inBytes 8 4))).toNat then
         raise (.capacity p.maxPixels ((BitVec.ofNat 32 (bigEndian (s.inBytes 4 4))).toNat *
            (BitVec.ofNat 32 (bigEndian (s.inBytes 8 4))).toNat)) s
       else acceptHeader (BitVec.ofNat 32 (bigEndian (s.inBytes 4 4)))
         (BitVec.ofNat 32 (bigEndian (s.inBytes 8 4))) (s.inByte 12) (s.inByte 13) s) := by
  have h12 : (s.inBytes 12 1).headD 0 = s.inByte 12 := rfl
  have h13 : (s.inBytes 13 1).headD 0 = s.inByte 13 := rfl
  rw [headerStep, if_neg (by simp only [minInput, headerBytes, trailerBytes]; omega), readIn_of_le (by omega)]
  simp only [trailerBytes]
  split
  · rfl
  · rw [readIn_of_le (by omega)]
    split
    · rfl
    · rw [readIn_of_le (by omega), readIn_of_le (by omega), readIn_of_le (by omega), readIn_of_le (by omega)]
      simp only [h12, h13]
      repeat' split
      all_goals rfl

/-- The HEADER step on a shorter input. -/
theorem headerStep_short (p : Config.Params) {s : State} (hl : s.inLen < 22) :
    headerStep p s = .next (raise (.tooShort s.inLen) s) := by
  rw [headerStep, if_pos (by simpa only [minInput, headerBytes, trailerBytes] using hl)]

/-- Everything the HEADER step can do: raise one of its errors, code 8 only when the image is larger than
`MAX_PIXELS`, or accept legal fields. -/
theorem headerStep_cases (p : Config.Params) (s : State) :
    (∃ e : DecodeError, (e.code.toNat ∈ [1, 2, 3, 4, 5] ∨
        (e.code.toNat = 8 ∧ ∃ w h : BitVec 32, p.maxPixels < w.toNat * h.toNat)) ∧
      headerStep p s = .next (raise e s)) ∨
    (∃ (w h : BitVec 32) (ch cs : Byte), 22 ≤ s.inLen ∧ (ch = 3 ∨ ch = 4) ∧ (cs = 0 ∨ cs = 1) ∧
      w.toNat * h.toNat ≤ p.maxPixels ∧ headerStep p s = .next (acceptHeader w h ch cs s)) := by
  rcases Nat.lt_or_ge s.inLen 22 with hl | hl
  · exact .inl ⟨_, by simp [DecodeError.code], headerStep_short p hl⟩
  · rw [headerStep_long p hl]
    split
    · exact .inl ⟨_, by simp [DecodeError.code], rfl⟩
    split
    · exact .inl ⟨_, by simp [DecodeError.code], rfl⟩
    split
    · exact .inl ⟨_, by simp [DecodeError.code], rfl⟩
    split
    · exact .inl ⟨_, by simp [DecodeError.code], rfl⟩
    split
    · exact .inl ⟨_, .inr ⟨by simp [DecodeError.code], _, _, ‹_›⟩, rfl⟩
    · refine .inr ⟨_, _, _, _, hl, ?_, ?_, by omega, rfl⟩
      · by_contra hc; simp_all
      · by_contra hc; simp_all

/-- A product of two `u32` fits in 64 bits, so it never exceeds the default `MAX_PIXELS` (10_state.md R30). -/
theorem u32_mul_lt (w h : BitVec 32) : w.toNat * h.toNat ≤ (2 ^ 32 - 1) * (2 ^ 32 - 1) :=
  Nat.mul_le_mul (Nat.le_sub_one_of_lt w.isLt) (Nat.le_sub_one_of_lt h.isLt)

/-- At the default parameters the HEADER step raises one of the codes 1 to 5, or accepts. -/
theorem headerStep_default_cases (s : State) :
    (∃ e : DecodeError, e.code.toNat ∈ [1, 2, 3, 4, 5] ∧
      headerStep Config.params s = .next (raise e s)) ∨
    (∃ (w h : BitVec 32) (ch cs : Byte), 22 ≤ s.inLen ∧ (ch = 3 ∨ ch = 4) ∧ (cs = 0 ∨ cs = 1) ∧
      headerStep Config.params s = .next (acceptHeader w h ch cs s)) := by
  rcases headerStep_cases Config.params s with ⟨e, he | ⟨-, w, h, hc⟩, h1⟩ | ⟨w, h, ch, cs, hl, hch, hcs, -, h1⟩
  · exact .inl ⟨e, he, h1⟩
  · have := u32_mul_lt w h
    simp only [Config.params] at hc
    omega
  · exact .inr ⟨w, h, ch, cs, hl, hch, hcs, h1⟩

theorem magic_iff (s : State) : s.inBytes 0 4 = magic ↔ MagicOk s := by
  simp [State.inBytes, magic, MagicOk, List.range_succ]

theorem trailer_iff {s : State} (h : 22 ≤ s.inLen) : s.inBytes (s.inLen - 8) 8 = trailer ↔ TrailerOk s := by
  have e : s.inLen - 8 + 7 = s.inLen - 1 := by omega
  simp only [State.inBytes, trailer, TrailerOk, List.range_succ, List.range_zero, List.nil_append,
    List.cons_append, List.map_cons, List.map_nil, List.cons.injEq, e, and_true]
  constructor
  · rintro ⟨h0, h1, h2, h3, h4, h5, h6, h7⟩
    refine ⟨fun k hk => ?_, h7⟩
    match k, hk with
    | 0, _ => exact h0
    | 1, _ => exact h1
    | 2, _ => exact h2
    | 3, _ => exact h3
    | 4, _ => exact h4
    | 5, _ => exact h5
    | 6, _ => exact h6
  · rintro ⟨h, h7⟩
    exact ⟨h 0 (by omega), h 1 (by omega), h 2 (by omega), h 3 (by omega), h 4 (by omega), h 5 (by omega),
      h 6 (by omega), h7⟩

theorem bigEndian_four (s : State) (a : Nat) : bigEndian (s.inBytes a 4) = inWord s a := by
  simp only [State.inBytes, bigEndian, inWord, List.range_succ, List.range_zero, List.nil_append,
    List.cons_append, List.map_cons, List.map_nil, List.foldl_cons, List.foldl_nil, Nat.add_zero]
  omega

theorem bigEndian_eight (s : State) (a : Nat) :
    bigEndian (s.inBytes a 8) = inWord s a * 2 ^ 32 + inWord s (a + 4) := by
  simp only [State.inBytes, bigEndian, inWord, List.range_succ, List.range_zero, List.nil_append,
    List.cons_append, List.map_cons, List.map_nil, List.foldl_cons, List.foldl_nil, Nat.add_zero, Nat.add_assoc,
    Nat.reduceAdd]
  omega

theorem inWord_lt (s : State) (a : Nat) : inWord s a < 2 ^ 32 := by
  have := (s.inByte a).isLt
  have := (s.inByte (a + 1)).isLt
  have := (s.inByte (a + 2)).isLt
  have := (s.inByte (a + 3)).isLt
  simp only [inWord]
  omega

/-- The HEADER step once the byte checks have passed. -/
theorem headerStep_ok (p : Config.Params) {s : State} (h : 22 ≤ s.inLen) (hm : MagicOk s) (ht : TrailerOk s)
    (hch : ChannelsOk s) (hcs : ColorspaceOk s) :
    headerStep p s = .next
      (if p.maxPixels < inWord s 4 * inWord s 8 then
        raise (.capacity p.maxPixels (inWord s 4 * inWord s 8)) s
      else acceptHeader (BitVec.ofNat 32 (inWord s 4)) (BitVec.ofNat 32 (inWord s 8))
        (s.inByte 12) (s.inByte 13) s) := by
  rw [headerStep_long p h, if_neg (by rw [Ne, not_not, magic_iff]; exact hm),
    if_neg (by rw [Ne, not_not, trailer_iff h]; exact ht),
    if_neg (by rintro ⟨h3, h4⟩; rcases hch with hc | hc <;> [exact h3 hc; exact h4 hc]),
    if_neg (by rintro ⟨h0, h1⟩; rcases hcs with hc | hc <;> [exact h0 hc; exact h1 hc])]
  simp only [bigEndian_four, BitVec.toNat_ofNat, Nat.mod_eq_of_lt (inWord_lt _ _)]

/-! ### TOKEN -/

/-- The TOKEN step with its reads carried out, when the body lies inside the input. -/
theorem tokenStep_eq {s : State} (hb : 14 + s.bodyLen ≤ s.inLen) (hc : s.cursor < s.bodyLen) :
    tokenStep s =
      if s.bodyLen < s.cursor + tokenLength (s.inByte (14 + s.cursor)) then
        .next (raise (.truncated (tokenLength (s.inByte (14 + s.cursor))) (s.bodyLen - s.cursor)) s)
      else exec (tokenOf (s.inByte (14 + s.cursor))
        (s.inBytes (14 + (s.cursor + 1)) (tokenLength (s.inByte (14 + s.cursor)) - 1))) s := by
  have ht : (s.inBytes (headerBytes + s.cursor) 1).headD 0 = s.inByte (14 + s.cursor) := rfl
  simp only [tokenStep, readBody]
  rw [readIn_of_le (by simp only [headerBytes]; omega)]
  simp only [ht]
  split
  · rfl
  · rw [readIn_of_le (by simp only [headerBytes]; omega)]
    simp only [headerBytes]

/-- Everything a TOKEN step that answers can do: raise, leaving the rest as it was, or carry out a token
that lies in the body and whose pixels fit. -/
theorem tokenStep_next {s t : State} (h : tokenStep s = .next t) :
    (∃ e : DecodeError, e.code.toNat ∈ [6, 7] ∧ t = raise e s) ∨
    (∃ i : Instr, s.cursor + i.length ≤ s.bodyLen ∧
      s.outCount.toNat + pixelsProduced i ≤ s.pixelCount.toNat ∧ t = tokenEffects i s) := by
  rw [tokenStep, readBody] at h
  obtain ⟨-, h⟩ := readIn_next h
  simp only [readBody] at h
  split at h
  · cases h
    exact .inl ⟨_, by simp [DecodeError.code], rfl⟩
  · obtain ⟨-, h⟩ := readIn_next h
    rcases exec_cases (tokenOf _ _) s with ⟨-, he⟩ | ⟨hr, he⟩
    · rw [he] at h
      cases h
      exact .inl ⟨_, by simp [DecodeError.code], rfl⟩
    · rw [he] at h
      cases h
      exact .inr ⟨_, by rw [tokenOf_length]; omega, hr, rfl⟩

/-- A TOKEN step inside its range always answers a next state. -/
theorem tokenStep_answers {s : State} (hb : 14 + s.bodyLen ≤ s.inLen) (hc : s.cursor < s.bodyLen) :
    ∃ t, tokenStep s = .next t := by
  rw [tokenStep_eq hb hc]
  split
  · exact ⟨_, rfl⟩
  · rcases exec_cases (tokenOf (s.inByte (14 + s.cursor))
        (s.inBytes (14 + (s.cursor + 1)) (tokenLength (s.inByte (14 + s.cursor)) - 1))) s with ⟨-, he⟩ | ⟨-, he⟩
    · exact ⟨_, he⟩
    · exact ⟨_, he⟩

/-! ### FINISH and the block's own step -/

/-- Everything the FINISH step can do. -/
theorem finishStep_cases (s : State) :
    (s.outCount = s.pixelCount ∧ finishStep s = .next { s with phase := .done }) ∨
    (s.outCount ≠ s.pixelCount ∧
      finishStep s = .next (raise (.sizeMismatch s.pixelCount.toNat s.outCount.toNat) s)) := by
  rw [finishStep]
  split
  · exact .inl ⟨‹_›, rfl⟩
  · exact .inr ⟨‹_›, rfl⟩

/-- Everything the block's own step can do when it answers. -/
theorem blockStep_next {p : Config.Params} {s t : State} (h : blockStep p s = .next t) :
    ((s.phase = .idle ∨ s.phase = .done ∨ s.phase = .error) ∧ t = s) ∨
    (s.phase = .header ∧ headerStep p s = .next t) ∨
    (s.phase = .body ∧ s.cursor < s.bodyLen ∧ tokenStep s = .next t) ∨
    (s.phase = .body ∧ s.cursor = s.bodyLen ∧ finishStep s = .next t) := by
  rw [blockStep] at h
  split at h
  · cases h; exact .inl ⟨.inl ‹_›, rfl⟩
  · exact .inr (.inl ⟨‹_›, h⟩)
  · split at h
    · exact .inr (.inr (.inl ⟨‹_›, ‹_›, h⟩))
    · split at h
      · exact .inr (.inr (.inr ⟨‹_›, ‹_›, h⟩))
      · cases h
  · cases h; exact .inl ⟨.inr (.inl ‹_›), rfl⟩
  · cases h; exact .inl ⟨.inr (.inr ‹_›), rfl⟩

/-! ### Block and host together -/

/-- `step` is the host's next move, or the block's own step. -/
theorem step_eq (s : State) :
    step s = match s.host with
      | [] => blockStep Config.params s
      | move :: rest => hostStep Config.params move (s.withHost rest) := rfl

/-- When the host does nothing, the step is the block's own. -/
theorem step_of_blockMoves {s : State} {hs : List HostMove} (h : BlockMoves s hs) :
    step s = blockStep Config.params (s.withHost hs) := by
  rcases h with ⟨h, rfl⟩ | h
  · rw [step_eq, h]
    have : s.withHost [] = s := by rw [← h]; rfl
    rw [this]
  · rw [step_eq, h]
    rfl

/-- The step in phase HEADER. -/
theorem step_header {s : State} {hs : List HostMove} (h : BlockMoves s hs) (hp : s.phase = .header) :
    step s = headerStep Config.params (s.withHost hs) := by
  rw [step_of_blockMoves h, blockStep, withHost_phase, hp]

/-- The step in phase BODY with a tag to fetch, its reads carried out. -/
theorem step_token {s : State} {hs : List HostMove} (h : BlockMoves s hs) (hp : s.phase = .body)
    (hc : s.cursor < s.bodyLen) (hb : 14 + s.bodyLen ≤ s.inLen) :
    step s =
      if s.bodyLen < s.cursor + tokenLength (s.inByte (14 + s.cursor)) then
        .next (raise (.truncated (tokenLength (s.inByte (14 + s.cursor))) (s.bodyLen - s.cursor)) (s.withHost hs))
      else exec (tokenOf (s.inByte (14 + s.cursor))
        (s.inBytes (14 + (s.cursor + 1)) (tokenLength (s.inByte (14 + s.cursor)) - 1))) (s.withHost hs) := by
  have e : step s = tokenStep (s.withHost hs) := by
    rw [step_of_blockMoves h, blockStep, withHost_phase, hp]
    exact if_pos hc
  exact e.trans (tokenStep_eq (s := s.withHost hs) hb hc)

/-- The step in phase BODY at the end of the body. -/
theorem step_finish {s : State} {hs : List HostMove} (h : BlockMoves s hs) (hp : s.phase = .body)
    (hc : s.cursor = s.bodyLen) :
    step s = if s.outCount = s.pixelCount then .next { s.withHost hs with phase := .done }
      else .next (raise (.sizeMismatch s.pixelCount.toNat s.outCount.toNat) (s.withHost hs)) := by
  have e : step s = finishStep (s.withHost hs) := by
    rw [step_of_blockMoves h, blockStep, withHost_phase, hp]
    refine (if_neg ?_).trans (if_pos hc)
    simp only [withHost_cursor, withHost_bodyLen, hc, Nat.lt_irrefl, not_false_eq_true]
  exact e

/-- The step in the phases in which the block rests. -/
theorem step_rest {s : State} {hs : List HostMove} (h : BlockMoves s hs)
    (hp : s.phase = .idle ∨ s.phase = .done ∨ s.phase = .error) : step s = .next (s.withHost hs) := by
  rw [step_of_blockMoves h, blockStep, withHost_phase]
  rcases hp with hp | hp | hp <;> rw [hp]

theorem busy_iff (s : State) : s.busy = true ↔ s.phase = .header ∨ s.phase = .body := by
  simp [State.busy]

/-- Everything a step can do when it answers: the block's own step, with or without a move of the host
taken off the list, or the effect of a host's move. -/
theorem step_next {s t : State} (h : step s = .next t) :
    ∃ rest, blockStep Config.params (s.withHost rest) = .next t ∨
      (s.busy = false ∧ ∃ addr bytes,
        t = { s.withHost rest with inMem := s.inMem.writeBytes addr bytes }) ∨
      (s.busy = false ∧ ∃ len, t = { s.withHost rest with inLen := len }) ∨
      (s.busy = false ∧ t = startStep (s.withHost rest)) ∨
      t = resetEvent Config.params (s.withHost rest) := by
  rw [step_eq] at h
  split at h
  · rename_i hh
    refine ⟨[], .inl ?_⟩
    have : s.withHost [] = s := by rw [← hh]; rfl
    rw [this]
    exact h
  · rename_i move rest _
    refine ⟨rest, ?_⟩
    have hbusy : (s.withHost rest).busy = s.busy := rfl
    cases move with
    | wait => exact .inl h
    | writeIn addr bytes =>
      simp only [hostStep, hbusy] at h
      split at h
      · cases h
      · split at h
        · cases h; exact .inr (.inl ⟨Bool.eq_false_iff.2 ‹_›, addr, bytes, rfl⟩)
        · cases h
    | setInLen len =>
      simp only [hostStep, hbusy] at h
      split at h
      · cases h
      · split at h
        · cases h; exact .inr (.inr (.inl ⟨Bool.eq_false_iff.2 ‹_›, len, rfl⟩))
        · cases h
    | start =>
      simp only [hostStep, hbusy] at h
      split at h
      · cases h
      · cases h; exact .inr (.inr (.inr (.inl ⟨Bool.eq_false_iff.2 ‹_›, rfl⟩)))
    | reset => cases h; exact .inr (.inr (.inr (.inr rfl)))

end Sys2Proof.Machine
end

