-- ==== Sys2Proof/Laws/Run.lean ====
section
/-! SUPPORT. Runs of several steps, and pieces of the input and of the output. -/

namespace Sys2Proof.Machine

theorem runSteps_succ (k : Nat) {s t : State} (h : step s = .next t) : runSteps (k + 1) s = runSteps k t := by
  rw [runSteps, h]

theorem runSteps_add (j k : Nat) {s t : State} (h : runSteps j s = .next t) :
    runSteps (j + k) s = runSteps k t := by
  induction j generalizing s with
  | zero => cases h; rw [Nat.zero_add]
  | succ j ih =>
    rw [Nat.add_right_comm, runSteps]
    rw [runSteps] at h
    cases hs : step s with
    | next s' => rw [hs] at h; exact ih h
    | fault r => rw [hs] at h; cases h
    | refused r => rw [hs] at h; cases h

/-- With no host move to come the step is the block's. -/
theorem step_block {s : State} (hh : s.host = []) : step s = blockStep Config.params s := by
  rw [step_eq, hh]

/-- Outside a decode, with no host move to come, nothing changes any more. -/
theorem runSteps_rest (k : Nat) {s : State} (hh : s.host = [])
    (hp : s.phase = .idle ∨ s.phase = .done ∨ s.phase = .error) : runSteps k s = .next s := by
  induction k with
  | zero => rfl
  | succ k ih =>
    have : step s = .next s := (step_rest (.inl ⟨hh, rfl⟩) hp).trans (by rw [← hh, withHost_self])
    rw [runSteps_succ k this, ih]

/-- A START that is not refused. -/
theorem step_start {s : State} {hs : List HostMove} (hh : s.host = .start :: hs)
    (hp : ¬ (s.phase = .header ∨ s.phase = .body)) : step s = .next (startStep (s.withHost hs)) := by
  rw [step_eq, hh]
  have : s.busy = false := by rw [← Bool.not_eq_true, busy_iff]; exact hp
  simp [hostStep, this]

theorem inBytes_add (s : State) (a m n : Nat) :
    s.inBytes a (m + n) = s.inBytes a m ++ s.inBytes (a + m) n := by
  simp [State.inBytes, List.range_add, Nat.add_assoc]

theorem encode_length (i : Instr) : (encode i).length = i.length := by cases i <;> rfl

/-- Writing a `u32` and reading it back. -/
theorem bigEndian_be32Bytes (v : BitVec 32) : BitVec.ofNat 32 (bigEndian (be32Bytes v)) = v := by
  apply BitVec.eq_of_toNat_eq
  simp [be32Bytes, bigEndian, BitVec.extractLsb'_toNat, Nat.shiftRight_eq_div_pow]
  have := v.isLt
  omega

end Sys2Proof.Machine
end

