-- ==== Sys2Proof/Tests/Slice0.lean ====
section
/-! SUPPORT. Tests of single steps against spec/95_test_vectors.md and against words written out from
30_encoding.md, and a witness for the hypotheses of every statement that has some. -/

namespace Sys2Proof.Machine

/-! ### Helpers -/

/-- The next state in an outcome. -/
def nextOf : Host.Outcome State Fault Refusal → Option State
  | .next t => some t
  | .fault _ => none
  | .refused _ => none

/-- Reset, then an input loaded. -/
def loaded (bytes : List Byte) : State :=
  { State.reset with inMem := Memory.writeBytes [] 0 bytes, inLen := bytes.length }

/-- Reset, an input loaded, START. -/
def atHeader (bytes : List Byte) : State := startStep (loaded bytes)

/-- A 4-channel image of `w` by 1 pixels, its header accepted. -/
def atBody (w : BitVec 32) (body : List Byte) : State :=
  acceptHeader w 1 4 0 (atHeader (imageBytes w 1 4 0 body))

/-- A started decode with room for 62 pixels and no body; `exec` is tried on it. -/
def roomy : State := acceptHeader 62 1 4 0 (startStep State.reset)

/-- `ERR_CODE`, `ERR_EXPECTED`, `ERR_FOUND` of the next state, when it is in ERROR. -/
def errorOf (o : Host.Outcome State Fault Refusal) : Option (BitVec 4 × BitVec 64 × BitVec 64) :=
  (nextOf o).bind State.errorReport

/-- The trailer bytes. -/
def tail : List Byte := [0, 0, 0, 0, 0, 0, 0, 1]

/-! ### Well-formedness (30_encoding.md R92) -/

theorem test_wellFormed_run_63_refused : (Instr.run 62).WellFormed = false := by decide
theorem test_wellFormed_run_64_refused : (Instr.run 63).WellFormed = false := by decide
theorem test_wellFormed_run_62_accepted : (Instr.run 61).WellFormed = true := by decide
theorem test_wellFormed_others_accepted :
    (Instr.rgb 255 255 255).WellFormed = true ∧ (Instr.rgba 0 0 0 0).WellFormed = true ∧
    (Instr.index 63).WellFormed = true ∧ (Instr.diff 0 3 0).WellFormed = true ∧
    (Instr.luma 63 15 15).WellFormed = true := by decide

/-! ### Decoding: words written out bit by bit from 30_encoding.md R85 (vectors T-1 to T-10) -/

theorem test_decode_rgb : decode [0b11111110, 0b01100100, 0b10010110, 0b11001000] = .ok (.rgb 100 150 200) [] := by
  decide
theorem test_decode_rgba :
    decode [0b11111111, 0b00010000, 0b00100000, 0b00110000, 0b01000000] = .ok (.rgba 16 32 48 64) [] := by decide
theorem test_decode_index : decode [0b00110101] = .ok (.index 53) [] := by decide
theorem test_decode_diff : decode [0b01111001] = .ok (.diff 3 2 1) [] := by decide
theorem test_decode_luma : decode [0b10101010, 0b01011101] = .ok (.luma 42 5 13) [] := by decide
theorem test_decode_run : decode [0b11111101] = .ok (.run 61) [] := by decide
/-- M5: a trailing byte that looks like a tag is data; the rest is handed back. -/
theorem test_decode_trailing_byte : decode [0x80, 0xFE, 0xC0] = .ok (.luma 0 15 14) [0xC0] := by decide
/-- L7, L8, M8, and no byte at all. -/
theorem test_decode_rejects :
    decode [0xFE, 1, 2] = .reject (.truncated 4 3) ∧ decode [0xFF] = .reject (.truncated 5 1) ∧
    decode [0x80] = .reject (.truncated 2 1) ∧ decode [] = .reject .noTag := by decide
/-- The table's numbering: the first byte is bits 7..0. -/
theorem test_decodeTableWord :
    decodeTableWord 40 0x40302010FF = some (.rgba 16 32 48 64) ∧ decodeTableWord 8 0xC0 = some (.run 0) ∧
    decodeTableWord 8 0xFF = some (.rgba 0 0 0 0) ∧ decodeTableWord 16 0x5DAA = some (.luma 42 5 13) := by decide
/-- S1: the whole container. -/
theorem test_image_bytes :
    imageBytes 1 1 4 0 (encode (.rgba 16 32 48 64)) =
      [0x71, 0x6f, 0x69, 0x66, 0, 0, 0, 1, 0, 0, 0, 1, 4, 0, 0xff, 0x10, 0x20, 0x30, 0x40] ++ tail := by decide

/-! ### The cache (95_test_vectors.md 2.1) -/

/-- C1 to C7, C11. -/
theorem test_hash :
    pixelHash ⟨0, 0, 0, 0⟩ = 0 ∧ pixelHash ⟨0, 0, 0, 255⟩ = 53 ∧ pixelHash ⟨255, 255, 255, 255⟩ = 38 ∧
    pixelHash ⟨16, 32, 48, 64⟩ = 32 ∧ pixelHash ⟨100, 150, 200, 255⟩ = 7 ∧ pixelHash ⟨1, 2, 3, 4⟩ = 14 ∧
    pixelHash ⟨51, 0, 0, 255⟩ = 14 ∧ pixelHash ⟨21, 0, 0, 0⟩ = 63 := by decide
/-- C12: the later of two colliding pixels stands. -/
theorem test_insert_collision :
    cacheGet (cacheInsert (cacheInsert cacheInit ⟨1, 2, 3, 4⟩) ⟨51, 0, 0, 255⟩) 14 = ⟨51, 0, 0, 255⟩ := by decide
/-- `get` after START. -/
theorem test_cache_init :
    cacheGet cacheInit 53 = ⟨0, 0, 0, 255⟩ ∧ cacheGet cacheInit 52 = ⟨0, 0, 0, 0⟩ ∧
    cacheGet cacheInit 0 = ⟨0, 0, 0, 0⟩ ∧ cacheGet cacheInit 63 = ⟨0, 0, 0, 0⟩ := by decide

/-! ### One token each (95_test_vectors.md 2.4 to 2.8) -/

/-- L1. -/
theorem test_rgb_takes_alpha_from_prev :
    (nextOf (exec (.rgb 100 150 200) roomy)).map (fun t => (t.prev, cacheGet t.cache 7, t.outPixel 0, t.cursor)) =
      some (⟨100, 150, 200, 255⟩, ⟨100, 150, 200, 255⟩, ⟨100, 150, 200, 255⟩, 4) := by decide
/-- L2. -/
theorem test_rgb_carries_alpha :
    (nextOf (exec (.rgb 0x33 0 0) (setPrev ⟨1, 2, 3, 4⟩ roomy))).map (fun t => (t.prev, cacheGet t.cache 5)) =
      some (⟨51, 0, 0, 4⟩, ⟨51, 0, 0, 4⟩) := by decide
/-- L3. -/
theorem test_rgba_ignores_prev :
    (nextOf (exec (.rgba 16 32 48 64) (setPrev ⟨9, 9, 9, 9⟩ roomy))).map
        (fun t => (t.prev, cacheGet t.cache 32, t.outPixel 0, t.cursor)) =
      some (⟨16, 32, 48, 64⟩, ⟨16, 32, 48, 64⟩, ⟨16, 32, 48, 64⟩, 5) := by decide
/-- L5. -/
theorem test_rgba_alpha_zero :
    (nextOf (exec (.rgba 0 0 0 0) roomy)).map (fun t => (t.prev, cacheGet t.cache 53)) =
      some (⟨0, 0, 0, 0⟩, ⟨0, 0, 0, 255⟩) := by decide
/-- I1: slot 53. -/
theorem test_index_seed :
    (nextOf (exec (.index 0x35) roomy)).map (fun t => (t.prev, t.outPixel 0, t.outCount, t.cursor)) =
      some (⟨0, 0, 0, 255⟩, ⟨0, 0, 0, 255⟩, 1, 1) := by decide
/-- I2: slot 52 is empty; there is no insert. -/
theorem test_index_empty_slot :
    (nextOf (exec (.index 0x34) roomy)).map (fun t => (t.prev, decide (t.cache = cacheInit))) =
      some (⟨0, 0, 0, 0⟩, true) := by decide
/-- D1. -/
theorem test_diff_plus_one_zero_minus_one :
    (nextOf (exec (.diff 3 2 1) (setPrev ⟨10, 10, 10, 255⟩ roomy))).map
        (fun t => (t.prev, cacheGet t.cache 7, t.outPixel 0, t.cursor)) =
      some (⟨11, 10, 9, 255⟩, ⟨11, 10, 9, 255⟩, ⟨11, 10, 9, 255⟩, 1) := by decide
/-- D6: both wraps, alpha kept. -/
theorem test_diff_wraps :
    (nextOf (exec (.diff 3 0 1) (setPrev ⟨255, 0, 7, 9⟩ roomy))).map (fun t => (t.prev, cacheGet t.cache 3)) =
      some (⟨0, 254, 6, 9⟩, ⟨0, 254, 6, 9⟩) := by decide
/-- M1. -/
theorem test_luma :
    (nextOf (exec (.luma 42 5 13) (setPrev ⟨101, 148, 200, 255⟩ roomy))).map
        (fun t => (t.prev, cacheGet t.cache 48, t.outPixel 0, t.cursor)) =
      some (⟨108, 158, 215, 255⟩, ⟨108, 158, 215, 255⟩, ⟨108, 158, 215, 255⟩, 2) := by decide
/-- M4: the most positive deltas wrap, alpha kept. -/
theorem test_luma_wraps :
    (nextOf (exec (.luma 63 15 15) (setPrev ⟨250, 250, 250, 7⟩ roomy))).map (fun t => (t.prev, cacheGet t.cache 10)) =
      some (⟨32, 25, 32, 7⟩, ⟨32, 25, 32, 7⟩) := by decide
/-- N2. -/
theorem test_run_six_copies :
    (nextOf (exec (.run 5) (setPrev ⟨1, 2, 3, 4⟩ roomy))).map
        (fun t => (t.outCount, t.outPixel 0, t.outPixel 5, t.prev, decide (t.cache = cacheInit))) =
      some (6, ⟨1, 2, 3, 4⟩, ⟨1, 2, 3, 4⟩, ⟨1, 2, 3, 4⟩, true) := by decide
/-- N4: nothing of an overrunning run is written. -/
theorem test_run_overrun :
    errorOf (exec (.run 1) { roomy with pixelCount := 2, outCount := 1 }) = some (7, 2, 3) ∧
    (nextOf (exec (.run 1) { roomy with pixelCount := 2, outCount := 1 })).map (fun t => (t.outCount, t.outMem)) =
      some (1, []) := by decide

/-! ### The steps of the block (95_test_vectors.md 2.2, 2.9, section 3) -/

/-- H2, H1. -/
theorem test_header_too_short :
    errorOf (step (atHeader [])) = some (1, 22, 0) ∧
    errorOf (step (atHeader (List.replicate 21 0))) = some (1, 22, 21) := by decide
/-- H4: everything is wrong, the magic is reported. -/
theorem test_header_magic_first :
    errorOf (step (atHeader
      ([0x51, 0x4f, 0x49, 0x46, 0, 0, 0, 1, 0, 0, 0, 1, 7, 9, 0xff, 0, 0, 0, 0, 0, 0, 1, 1]))) =
      some (2, 0x716F6966, 0x514F4946) := by decide
/-- H6. -/
theorem test_header_trailer_before_channels :
    errorOf (step (atHeader
      ([0x71, 0x6f, 0x69, 0x66, 0, 0, 0, 1, 0, 0, 0, 1, 7, 9, 0xff, 0, 0, 0, 0, 0, 0, 1, 1]))) =
      some (3, 1, 257) := by decide
/-- H7. -/
theorem test_header_channels_before_colorspace :
    errorOf (step (atHeader ([0x71, 0x6f, 0x69, 0x66, 0, 0, 0, 1, 0, 0, 0, 1, 7, 9, 0xff] ++ tail))) =
      some (4, 3, 7) := by decide
/-- H9. -/
theorem test_header_colorspace :
    errorOf (step (atHeader ([0x71, 0x6f, 0x69, 0x66, 0, 0, 0, 1, 0, 0, 0, 1, 4, 2, 0] ++ tail))) =
      some (5, 0, 2) := by decide
/-- H10. -/
theorem test_header_big_endian :
    (nextOf (step (atHeader ([0x71, 0x6f, 0x69, 0x66, 0, 0, 1, 0, 0, 0, 0, 2, 3, 1] ++ tail)))).map
        (fun t => (t.phase, t.width, t.height, t.pixelCount)) = some (.body, 256, 2, 512) ∧
    (nextOf (step (atHeader ([0x71, 0x6f, 0x69, 0x66, 0, 0, 1, 0, 0, 0, 0, 2, 3, 1] ++ tail)))).map
        (fun t => (t.channels, t.colorspace, t.bodyLen, t.cursor)) = some (3, 1, 0, 0) := by decide
/-- H11, H12: the product does not wrap, and the capacity check. -/
theorem test_header_capacity :
    (nextOf (step (atHeader (imageBytes 0xFFFFFFFF 0xFFFFFFFF 4 0 [])))).map (fun t => (t.phase, t.pixelCount)) =
      some (.body, 18446744065119617025) ∧
    errorOf (stepWith { Config.params with maxPixels := 2 ^ 32 }
      (atHeader (imageBytes 0xFFFFFFFF 0xFFFFFFFF 4 0 []))) = some (8, 4294967296, 18446744065119617025) := by decide
/-- P7 and H14: FINISH. -/
theorem test_finish :
    (nextOf (step (atBody 0 []))).map (fun t => (t.phase, t.result)) = some (.done, some []) ∧
    errorOf (step (atBody 1 [])) = some (7, 1, 0) := by decide
/-- S4: the trailer is not taken as the missing byte. -/
theorem test_token_truncated :
    errorOf (step (atBody 1 [0xff, 0x10, 0x20, 0x30])) = some (6, 5, 4) ∧
    (nextOf (step (atBody 1 [0xff, 0x10, 0x20, 0x30]))).map (fun t => (t.cursor, t.outCount, t.outMem)) =
      some (0, 0, []) := by decide
/-- P8: truncation before the capacity check. -/
theorem test_token_truncated_and_overrunning :
    errorOf (step { atBody 1 [0x00, 0xff] with cursor := 1, outCount := 1 }) = some (6, 5, 1) := by decide
/-- M1 as a TOKEN step, its second byte fetched from `IN`. -/
theorem test_token_luma :
    (nextOf (step { atBody 1 [0xaa, 0x5d] with prev := ⟨101, 148, 200, 255⟩ })).map (fun t => (t.prev, t.cursor)) =
      some (⟨108, 158, 215, 255⟩, 2) := by decide
/-- K2, K3, K4. -/
theorem test_packing :
    pixelsToBytes [⟨16, 32, 48, 64⟩] = [0x10, 0x20, 0x30, 0x40] ∧
    pixelsToBytes [⟨1, 2, 3, 4⟩, ⟨5, 6, 7, 8⟩] = [1, 2, 3, 4, 5, 6, 7, 8] ∧
    bytesToPixels [1, 2, 3, 4, 5] = none := by decide

/-! ### The host's questions -/

/-- A placed word is what the next step runs, from the state after reset. -/
theorem test_withFetchWord :
    (nextOf (step (State.reset.withFetchWord 40 0x40302010FF))).map (fun t => t.prev) = some ⟨16, 32, 48, 64⟩ ∧
    (nextOf (step (State.reset.withFetchWord 8 0xC2))).map (fun t => t.outCount) = some 3 := by decide

/-! ### Witnesses: the hypotheses of the statements can be met -/

/-- For the encoding statements: a well-formed instruction, the highest legal run. -/
theorem witness_decodeReadsBackEveryToken : (Instr.run 61).WellFormed = true := by decide
theorem witness_decodedBytesAreTheEncoding : decode [0xFD, 0xFF] = .ok (.run 61) [0xFF] := by decide
/-- Both clauses, at the boundary between them. -/
theorem witness_decodeRejectsOnlyTruncation :
    tokenLength 0xFF ≤ [(1 : Byte), 2, 3, 4].length + 1 ∧ [(1 : Byte), 2, 3].length + 1 < tokenLength 0xFF := by decide
/-- The six clauses, at the ends of their ranges. -/
theorem witness_classifyFollowsTagMap :
    (0x3F : Byte).toNat ≤ 0x3F ∧ 0x40 ≤ (0x40 : Byte).toNat ∧ (0x7F : Byte).toNat ≤ 0x7F ∧
    0x80 ≤ (0x80 : Byte).toNat ∧ (0xBF : Byte).toNat ≤ 0xBF ∧ 0xC0 ≤ (0xC0 : Byte).toNat ∧
    (0xFD : Byte).toNat ≤ 0xFD ∧ (0xFE : Byte).toNat = 0xFE ∧ (0xFF : Byte).toNat = 0xFF := by decide
theorem witness_writtenTokensDecodeToTheirOperands :
    (AsmToken.rgb 255 0 255).inRange = true ∧ (AsmToken.rgba 0 255 0 255).inRange = true ∧
    (AsmToken.index 63).inRange = true ∧ (AsmToken.diff (-2) 1 0).inRange = true ∧
    (AsmToken.luma (-32) (-8) 7).inRange = true ∧ (AsmToken.run 62).inRange = true := by decide
/-- C6, C7 collide; C9 is in its slot after the first insert. -/
theorem witness_insertLastWinsAndIsIdempotent :
    pixelHash ⟨1, 2, 3, 4⟩ = pixelHash ⟨51, 0, 0, 255⟩ ∧
    cacheGet (cacheInsert cacheInit ⟨1, 2, 3, 4⟩) (pixelHash ⟨1, 2, 3, 4⟩) = ⟨1, 2, 3, 4⟩ := by decide

/-- For the one-pixel completions: room for exactly the one pixel. -/
theorem witness_onePixelCompletes : (atBody 1 []).outCount.toNat + 1 ≤ (atBody 1 []).pixelCount.toNat := by decide
/-- For RUN: the longest run fills the output exactly (N3). -/
theorem witness_runCompletes : roomy.outCount.toNat + ((61 : BitVec 6).toNat + 1) ≤ roomy.pixelCount.toNat := by decide
/-- For `TokensLeaveTheRestUnchanged`, with the two clauses about INDEX and RUN, and `PrevIsLastPixelEmitted`. -/
theorem witness_tokensLeaveTheRestUnchanged :
    (∃ t, exec (.run 61) roomy = .next t) ∧ (∃ t, exec (.index 53) roomy = .next t) ∧
    roomy.outCount.toNat + pixelsProduced (.run 61) ≤ roomy.pixelCount.toNat ∧
    roomy.outCount.toNat + pixelsProduced (.index 53) ≤ roomy.pixelCount.toNat :=
  ⟨⟨_, rfl⟩, ⟨_, rfl⟩, by decide, by decide⟩
/-- X13: any token in an image of no pixels; and the second clause's premises. -/
theorem witness_overrunRaisesSizeMismatch :
    (atBody 0 []).pixelCount.toNat < (atBody 0 []).outCount.toNat + pixelsProduced (.index 0) ∧
    (atBody 0 []).pixelCount.toNat = (atBody 0 []).width.toNat * (atBody 0 []).height.toNat ∧
    (atBody 0 []).outCount.toNat ≤ (atBody 0 []).pixelCount.toNat := by decide
theorem witness_lumaCoversDiff : (atBody 1 []).outCount.toNat + 1 ≤ (atBody 1 []).pixelCount.toNat := by decide

/-- `BlockMoves` by an empty list, and by a host that waits. -/
theorem witness_blockMoves :
    BlockMoves (atBody 1 []) [] ∧ BlockMoves ((atBody 1 []).withHost [.wait, .start]) [.start] :=
  ⟨.inl ⟨rfl, rfl⟩, .inr rfl⟩
theorem witness_stepRunsTheDecodedToken :
    BlockMoves (atBody 1 [0xaa, 0x5d]) [] ∧ (atBody 1 [0xaa, 0x5d]).phase = .body ∧
    (atBody 1 [0xaa, 0x5d]).cursor < (atBody 1 [0xaa, 0x5d]).bodyLen ∧
    14 + (atBody 1 [0xaa, 0x5d]).bodyLen ≤ (atBody 1 [0xaa, 0x5d]).inLen ∧
    decode ((atBody 1 [0xaa, 0x5d]).inBytes (14 + (atBody 1 [0xaa, 0x5d]).cursor)
      ((atBody 1 [0xaa, 0x5d]).bodyLen - (atBody 1 [0xaa, 0x5d]).cursor)) = .ok (.luma 42 5 13) [] :=
  ⟨.inl ⟨rfl, rfl⟩, by decide, by decide, by decide, by decide⟩
/-- P9: one byte short of the boundary that the witness before this one meets. -/
theorem witness_truncatedTokenRaises :
    BlockMoves (atBody 1 [0x80]) [] ∧ (atBody 1 [0x80]).phase = .body ∧
    (atBody 1 [0x80]).cursor < (atBody 1 [0x80]).bodyLen ∧
    14 + (atBody 1 [0x80]).bodyLen ≤ (atBody 1 [0x80]).inLen ∧
    (atBody 1 [0x80]).bodyLen < (atBody 1 [0x80]).cursor + tokenLength ((atBody 1 [0x80]).inByte (14 + (atBody 1 [0x80]).cursor)) :=
  ⟨.inl ⟨rfl, rfl⟩, by decide, by decide, by decide, by decide⟩
theorem witness_cursorMovesByTheTokenLength :
    BlockMoves (atBody 1 [0xaa, 0x5d]) [] ∧ (atBody 1 [0xaa, 0x5d]).phase = .body ∧
    (atBody 1 [0xaa, 0x5d]).cursor < (atBody 1 [0xaa, 0x5d]).bodyLen ∧
    14 + (atBody 1 [0xaa, 0x5d]).bodyLen ≤ (atBody 1 [0xaa, 0x5d]).inLen ∧
    ∃ t, step (atBody 1 [0xaa, 0x5d]) = .next t :=
  ⟨.inl ⟨rfl, rfl⟩, by decide, by decide, by decide, ⟨_, rfl⟩⟩
/-- Both clauses of FINISH. -/
theorem witness_finishEndsTheDecode :
    (BlockMoves (atBody 0 []) [] ∧ (atBody 0 []).phase = .body ∧ (atBody 0 []).cursor = (atBody 0 []).bodyLen ∧
      (atBody 0 []).outCount = (atBody 0 []).pixelCount) ∧
    (BlockMoves (atBody 1 []) [] ∧ (atBody 1 []).phase = .body ∧ (atBody 1 []).cursor = (atBody 1 []).bodyLen ∧
      (atBody 1 []).outCount ≠ (atBody 1 []).pixelCount) :=
  ⟨⟨.inl ⟨rfl, rfl⟩, by decide⟩, ⟨.inl ⟨rfl, rfl⟩, by decide⟩⟩

/-! Inputs of 95_test_vectors.md 2.2. -/

def inputH3 : List Byte := [0x71, 0x6f, 0x69, 0x67, 0, 0, 0, 1, 0, 0, 0, 1, 4, 0] ++ tail
def inputH6 : List Byte := [0x71, 0x6f, 0x69, 0x66, 0, 0, 0, 1, 0, 0, 0, 1, 7, 9, 0xff, 0, 0, 0, 0, 0, 0, 1, 1]
def inputH7 : List Byte := imageBytes 1 1 7 9 [0xff]
def inputH9 : List Byte := imageBytes 1 1 4 2 [0x00]
def inputH10 : List Byte := imageBytes 256 2 3 1 []

/-- The five clauses of `HeaderReportsTheFirstFault`: H1, H3, H6, H7, H9. -/
theorem witness_headerFault_tooShort :
    BlockMoves (atHeader (List.replicate 21 0)) [] ∧ (atHeader (List.replicate 21 0)).phase = .header ∧
    (atHeader (List.replicate 21 0)).inLen < 22 := ⟨.inl ⟨rfl, rfl⟩, rfl, by decide⟩
/-- H3, at the shortest length. -/
theorem witness_headerFault_magic :
    BlockMoves (atHeader inputH3) [] ∧ (atHeader inputH3).phase = .header ∧
    22 ≤ (atHeader inputH3).inLen ∧ ¬ MagicOk (atHeader inputH3) := ⟨.inl ⟨rfl, rfl⟩, rfl, by decide⟩
theorem witness_headerFault_trailer :
    BlockMoves (atHeader inputH6) [] ∧ (atHeader inputH6).phase = .header ∧
    22 ≤ (atHeader inputH6).inLen ∧ MagicOk (atHeader inputH6) ∧ ¬ TrailerOk (atHeader inputH6) := ⟨.inl ⟨rfl, rfl⟩, rfl, by decide⟩
theorem witness_headerFault_channels :
    BlockMoves (atHeader inputH7) [] ∧ (atHeader inputH7).phase = .header ∧
    22 ≤ (atHeader inputH7).inLen ∧ MagicOk (atHeader inputH7) ∧ TrailerOk (atHeader inputH7) ∧
    ¬ ChannelsOk (atHeader inputH7) := ⟨.inl ⟨rfl, rfl⟩, rfl, by decide⟩
theorem witness_headerFault_colorspace :
    BlockMoves (atHeader inputH9) [] ∧ (atHeader inputH9).phase = .header ∧
    22 ≤ (atHeader inputH9).inLen ∧ MagicOk (atHeader inputH9) ∧ TrailerOk (atHeader inputH9) ∧
    ChannelsOk (atHeader inputH9) ∧ ¬ ColorspaceOk (atHeader inputH9) := ⟨.inl ⟨rfl, rfl⟩, rfl, by decide⟩
/-- H10. -/
theorem witness_headerAcceptsAndFillsRegisters :
    BlockMoves (atHeader inputH10) [] ∧ (atHeader inputH10).phase = .header ∧
    22 ≤ (atHeader inputH10).inLen ∧ MagicOk (atHeader inputH10) ∧ TrailerOk (atHeader inputH10) ∧
    ChannelsOk (atHeader inputH10) ∧ ColorspaceOk (atHeader inputH10) := ⟨.inl ⟨rfl, rfl⟩, rfl, by decide⟩
/-- A limit one below the product. -/
theorem witness_capacityIsCheckedUpFront :
    ({ Config.params with maxPixels := 511 } : Config.Params).sizeMismatchIsError = true ∧
    (atHeader inputH10).host = [] ∧ (atHeader inputH10).phase = .header ∧
    22 ≤ (atHeader inputH10).inLen ∧ MagicOk (atHeader inputH10) ∧ TrailerOk (atHeader inputH10) ∧
    ChannelsOk (atHeader inputH10) ∧ ColorspaceOk (atHeader inputH10) ∧
    ({ Config.params with maxPixels := 511 } : Config.Params).maxPixels <
      inWord (atHeader inputH10) 4 * inWord (atHeader inputH10) 8 := by decide
/-- The second clause's premises. -/
theorem witness_capacity_secondClause :
    ∃ t, step (raise (.capacity 4 5) State.reset) = .next t ∧ t.errCode = 8 := ⟨_, rfl, rfl⟩
theorem witness_headerAcceptsEveryContainer :
    BlockMoves (atHeader (imageBytes 1 1 4 0 [0xc0])) [] ∧ (atHeader (imageBytes 1 1 4 0 [0xc0])).phase = .header ∧
    (atHeader (imageBytes 1 1 4 0 [0xc0])).inLen = (imageBytes 1 1 4 0 [0xc0]).length ∧
    (atHeader (imageBytes 1 1 4 0 [0xc0])).inBytes 0 (atHeader (imageBytes 1 1 4 0 [0xc0])).inLen =
      imageBytes 1 1 4 0 [0xc0] := ⟨.inl ⟨rfl, rfl⟩, rfl, rfl, by decide⟩

/-- START in each of the three phases that accept it. -/
theorem witness_startInitialisesTheDecode :
    ∀ ph, ph = Phase.idle ∨ ph = .done ∨ ph = .error →
      ({ State.reset with host := [.start], phase := ph } : State).host = .start :: [] ∧
      (({ State.reset with host := [.start], phase := ph } : State).phase = .idle ∨
        ({ State.reset with host := [.start], phase := ph } : State).phase = .done ∨
        ({ State.reset with host := [.start], phase := ph } : State).phase = .error) :=
  fun _ h => ⟨rfl, h⟩
/-- Both clauses, for each of the three moves: the decode of one pixel is busy, reset is not. -/
theorem witness_hostBreachesAreRefused (move : HostMove) :
    ((atBody 1 []).withHost [move]).host = [move] ∧
    (((atBody 1 []).withHost [move]).phase = .header ∨ ((atBody 1 []).withHost [move]).phase = .body) ∧
    (State.reset.withHost [move]).host = [move] ∧
    ¬ ((State.reset.withHost [move]).phase = .header ∨ (State.reset.withHost [move]).phase = .body) :=
  ⟨rfl, .inr rfl, rfl, by rintro (h | h) <;> cases h⟩
theorem witness_hostLoadsTheInput :
    ¬ (State.reset.phase = .header ∨ State.reset.phase = .body) ∧
    (State.reset.withHost [.writeIn 0 [0x71]]).host = .writeIn 0 [0x71] :: [] ∧
    (State.reset.withHost [.setInLen 22]).host = .setInLen 22 :: [] := by decide
/-- A reset in mid-decode. -/
theorem witness_resetEventRestoresRegisters : ((atBody 1 []).withHost [.reset]).host = .reset :: [] := by decide
theorem witness_blockRestsOutsideADecode :
    BlockMoves State.reset [] ∧ (State.reset.phase = .idle ∨ State.reset.phase = .done ∨ State.reset.phase = .error) :=
  ⟨.inl ⟨rfl, rfl⟩, .inl rfl⟩

/-- A decode in the middle: P4 after its first token, one pixel of two written. -/
def midway : State :=
  { atBody 2 [0xc0, 0xc1] with cursor := 1, outCount := 1, outMem := [(0, 0), (1, 0), (2, 0), (3, 255)] }

/-- It is the state that HEADER and the first TOKEN step of P4 lead to. -/
theorem test_midway_is_reached :
    nextOf (step (atHeader (imageBytes 2 1 4 0 [0xc0, 0xc1]))) = some (atBody 2 [0xc0, 0xc1]) ∧
    nextOf (step (atBody 2 [0xc0, 0xc1])) = some midway := by decide

/-- The invariant is met by a state in the middle of a decode. -/
theorem witness_inv : Inv midway where
  inWf := by decide
  outWf := by decide
  errPhase := by decide
  errRange := by decide
  errRegs := by decide
  product := by decide
  counts := by decide
  cursorIn := by decide
  body := by decide
  fields := by decide
  done := by decide
  fresh := fun h => absurd h (by decide)
  last := ⟨by decide, by decide⟩
  slots := by decide

/-- For the invariant, the append-only and the precise-error statements: P4's second token raises. -/
theorem witness_everyStepKeepsTheInvariant : Inv midway ∧ ∃ t, step midway = .next t := ⟨witness_inv, ⟨_, rfl⟩⟩
theorem witness_noFaultUnderTheInvariant : Inv midway ∧ BlockMoves midway [] := ⟨witness_inv, .inl ⟨rfl, rfl⟩⟩
/-- A step that writes output: the clause of `OutputIsAppendOnly` about changed bytes has a changed byte wherever the
byte was listed with another value before. -/
theorem witness_outputIsAppendOnly :
    ∃ t, step { atBody 1 [0xc0] with outMem := [(3, 7)] } = .next t ∧
      ({ atBody 1 [0xc0] with outMem := [(3, 7)] } : State).host.head? ≠ some .reset ∧
      t.outByte 3 ≠ ({ atBody 1 [0xc0] with outMem := [(3, 7)] } : State).outByte 3 := ⟨_, rfl, by decide, by decide⟩
theorem witness_blockNeverWritesTheInput :
    (∃ t, step midway = .next t) ∧ BlockMoves midway [] ∧
    (∃ t, step (State.reset.withHost [.start]) = .next t) ∧ (State.reset.withHost [.start]).host = .start :: [] :=
  ⟨⟨_, rfl⟩, .inl ⟨rfl, rfl⟩, ⟨_, rfl⟩, rfl⟩
theorem witness_errorsArePrecise :
    BlockMoves midway [] ∧ (midway.phase = .header ∨ midway.phase = .body) ∧
    ∃ t, step midway = .next t ∧ t.phase = .error := ⟨.inl ⟨rfl, rfl⟩, .inr rfl, ⟨_, rfl, rfl⟩⟩
theorem witness_onlyStartAndResetLeaveError :
    (raise (.tooShort 0) State.reset).phase = .error ∧
    (∃ t, step ((raise (.tooShort 0) State.reset).withHost [.setInLen 22]) = .next t) ∧
    ((raise (.tooShort 0) State.reset).withHost [.setInLen 22]).host.head? ≠ some .start ∧
    ((raise (.tooShort 0) State.reset).withHost [.setInLen 22]).host.head? ≠ some .reset :=
  ⟨rfl, ⟨_, rfl⟩, by decide, by decide⟩
/-- Both clauses, the second with its last pixel. -/
theorem witness_resultLayout :
    midway.phase ≠ .done ∧ ({ midway with phase := .done } : State).phase = .done ∧ 1 < midway.pixelCount.toNat := by decide
/-- K1, K3, K4. -/
theorem witness_packingRoundTrip :
    ([] : List Byte).length % 4 = 0 ∧ [(1 : Byte), 2, 3, 4, 5, 6, 7, 8].length % 4 = 0 ∧
    [(1 : Byte), 2, 3, 4, 5].length % 4 ≠ 0 := by decide

/-- A loaded input and START. -/
def toStart (bytes : List Byte) : State := (loaded bytes).withHost [.start]

/-- For `EveryDecodeEnds` and `StepsComputeTheWholeDecode`. -/
theorem witness_everyDecodeEnds :
    (toStart [0xff]).host = [.start] ∧ ¬ ((toStart [0xff]).phase = .header ∨ (toStart [0xff]).phase = .body) := by decide
/-- P11: one block fresh from reset, another whose memory, cache and registers hold an earlier decode. -/
theorem witness_nothingCarriesOver :
    (toStart (imageBytes 1 1 4 0 [0x0e])).host = [.start] ∧
    ({ toStart (imageBytes 1 1 4 0 [0x0e]) with
        phase := .done, prev := ⟨1, 2, 3, 4⟩, cache := cacheInsert cacheInit ⟨1, 2, 3, 4⟩, outMem := [(0, 9)] } : State).host =
      [.start] ∧
    ¬ ((toStart (imageBytes 1 1 4 0 [0x0e])).phase = .header ∨ (toStart (imageBytes 1 1 4 0 [0x0e])).phase = .body) ∧
    ¬ (Phase.done = .header ∨ Phase.done = .body) ∧
    (toStart (imageBytes 1 1 4 0 [0x0e])).inLen = (imageBytes 1 1 4 0 [0x0e]).length ∧
    ∀ a, a < (toStart (imageBytes 1 1 4 0 [0x0e])).inLen →
      (toStart (imageBytes 1 1 4 0 [0x0e])).inByte a =
        ({ toStart (imageBytes 1 1 4 0 [0x0e]) with
          phase := .done, prev := ⟨1, 2, 3, 4⟩, cache := cacheInsert cacheInit ⟨1, 2, 3, 4⟩, outMem := [(0, 9)] } : State).inByte a :=
  ⟨rfl, rfl, by decide, by decide, rfl, fun _ _ => rfl⟩
/-- The tokens of P6. -/
def tokensP6 : List Instr := [.rgba 1 2 3 4, .rgb 51 0 0, .index 14]
/-- P6 and P5 as whole inputs, byte for byte. -/
def inputP6 : List Byte :=
  [0x71, 0x6f, 0x69, 0x66, 0, 0, 0, 3, 0, 0, 0, 1, 4, 0, 0xff, 1, 2, 3, 4, 0xfe, 0x33, 0, 0, 0x0e] ++ tail
def inputP5 : List Byte := [0x71, 0x6f, 0x69, 0x66, 0, 0, 0, 2, 0, 0, 0, 2, 4, 0, 0xc1] ++ tail

/-- P6: a stream with exactly the declared pixels; P7: one of none. -/
theorem witness_decodeReproducesTheStream :
    ((4 : Byte) = 3 ∨ (4 : Byte) = 4) ∧ ((0 : Byte) = 0 ∨ (0 : Byte) = 1) ∧
    (∀ i ∈ tokensP6, i.WellFormed = true) ∧ (toStart inputP6).host = [.start] ∧
    ¬ ((toStart inputP6).phase = .header ∨ (toStart inputP6).phase = .body) ∧
    (toStart inputP6).inLen = (imageBytes 3 1 4 0 (tokensP6.flatMap encode)).length ∧
    (toStart inputP6).inBytes 0 (toStart inputP6).inLen = imageBytes 3 1 4 0 (tokensP6.flatMap encode) ∧
    (streamPixels ⟨0, 0, 0, 255⟩ firstCache tokensP6).length = (3 : BitVec 32).toNat * (1 : BitVec 32).toNat ∧
    (streamPixels ⟨0, 0, 0, 255⟩ firstCache []).length = (0 : BitVec 32).toNat * (0 : BitVec 32).toNat := by decide
/-- The pixels of P6, and of P2 (which tells the two readings of slot 53 apart), as the specification of a stream. -/
theorem test_streamPixels :
    streamPixels ⟨0, 0, 0, 255⟩ firstCache [.rgba 1 2 3 4, .rgb 51 0 0, .index 14] =
      [⟨1, 2, 3, 4⟩, ⟨51, 0, 0, 4⟩, ⟨1, 2, 3, 4⟩] ∧
    streamPixels ⟨0, 0, 0, 255⟩ firstCache [.run 2, .rgba 1 2 3 4, .index 53, .run 0] =
      [⟨0, 0, 0, 255⟩, ⟨0, 0, 0, 255⟩, ⟨0, 0, 0, 255⟩, ⟨1, 2, 3, 4⟩, ⟨0, 0, 0, 255⟩, ⟨0, 0, 0, 255⟩] := by decide
/-- P5 (too few pixels) and, in the last clause, P4 (too many). -/
theorem witness_wrongPixelCountIsAnError :
    ((4 : Byte) = 3 ∨ (4 : Byte) = 4) ∧ ((0 : Byte) = 0 ∨ (0 : Byte) = 1) ∧
    (∀ i ∈ [Instr.run 1], i.WellFormed = true) ∧ (toStart inputP5).host = [.start] ∧
    ¬ ((toStart inputP5).phase = .header ∨ (toStart inputP5).phase = .body) ∧
    (toStart inputP5).inLen = (imageBytes 2 2 4 0 ([Instr.run 1].flatMap encode)).length ∧
    (toStart inputP5).inBytes 0 (toStart inputP5).inLen = imageBytes 2 2 4 0 ([Instr.run 1].flatMap encode) ∧
    (streamPixels ⟨0, 0, 0, 255⟩ firstCache [.run 1]).length ≠ (2 : BitVec 32).toNat * (2 : BitVec 32).toNat ∧
    (streamPixels ⟨0, 0, 0, 255⟩ firstCache [.run 0, .run 1]).length ≠
      (2 : BitVec 32).toNat * (1 : BitVec 32).toNat := by decide

end Sys2Proof.Machine
end

section
/-! PROOFS, family 10_state.md: the values after reset, the status levels, and the invariant of every run (O38 to
O42). The invariant is taken through the updates that a step is made of, one lemma per update; `step_next`,
`blockStep_next`, `headerStep_default_cases`, `tokenStep_next` and `finishStep_cases` say that there are no
others. -/

namespace Sys2Proof.Machine

/-! ### The initial decode state (10_state.md R22, R41) -/

/-- `init` seeds slot 53 and clears every other slot. -/
theorem cacheGet_init (i : Slot) :
    cacheGet cacheInit i = if 53 = i then (⟨0, 0, 0, 255⟩ : Pixel) else ⟨0, 0, 0, 0⟩ := by
  have seed : pixelHash prevInit = 53 := by decide
  have cleared : cacheGet (Vector.replicate 64 pixelDefault) i = pixelDefault := by simp [cacheGet]
  rw [cacheInit, cacheGet_insert, seed, cleared]
  rfl

/-- START leaves the initial decode state. -/
theorem fresh_startStep (s : State) : Fresh (startStep s) where
  prev := rfl
  seed := cacheGet_init 53
  slots i hi := (cacheGet_init i).trans (if_neg hi.symm)
  cursor := rfl
  outCount := rfl
  width := rfl
  height := rfl
  channels := rfl
  colorspace := rfl
  pixelCount := rfl
  bodyLen := rfl

/-- So does reset. -/
theorem fresh_reset : Fresh State.reset :=
  { fresh_startStep State.reset with }

/-- In the initial decode state, before any error and with canonical memories, the invariant holds. -/
theorem Fresh.inv {s : State} (f : Fresh s) (hp : s.phase = .idle ∨ s.phase = .header)
    (hi : s.inMem.wf = true) (ho : s.outMem.wf = true)
    (hc : s.errCode = 0) (he : s.errExpected = 0) (hf : s.errFound = 0) : Inv s where
  inWf := hi
  outWf := ho
  errPhase := by rcases hp with hp | hp <;> simp [hp, hc]
  errRange := by simp [hc]
  errRegs _ := ⟨he, hf⟩
  product := by simp [f.pixelCount, f.width]
  counts := by simp [f.outCount]
  cursorIn := by simp [f.cursor]
  body hb := by rcases hp with hp | hp <;> simp [hp] at hb
  fields hb := by rcases hp with hp | hp <;> simp [hp] at hb
  done hd := by rcases hp with hp | hp <;> simp [hp] at hd
  fresh _ := f
  last := ⟨fun _ => f.prev, fun h => absurd f.outCount h⟩
  slots i := by
    by_cases h53 : i = 53
    · subst h53
      have seed : s.cache[(53 : Slot)] = ⟨0, 0, 0, 255⟩ := f.seed
      exact .inl (by rw [seed]; decide)
    · exact .inr (f.slots i h53)

/-! ### The host's moves -/

/-- The invariant says nothing of the host and of the reset number, of `IN` only its canonical form, and of
`IN_LEN` only its value in BODY. -/
theorem Inv.setInput {s : State} (h : Inv s) (hs : List HostMove) (r : Nat) {m : Memory} {n : Nat}
    (hm : m.wf = true) (hn : s.phase = .body → n = s.inLen) :
    Inv { s with inMem := m, inLen := n, host := hs, resets := r } :=
  { h with
    inWf := hm
    body := fun hp => (h.body hp).trans (hn hp).symm
    fresh := fun hp => { h.fresh hp with } }

theorem Inv.withHost {s : State} (h : Inv s) (hs : List HostMove) : Inv (s.withHost hs) :=
  h.setInput hs s.resets h.inWf fun _ => rfl

theorem inv_reset : Inv State.reset :=
  fresh_reset.inv (.inl rfl) rfl rfl rfl rfl rfl

theorem inv_resetEvent (p : Config.Params) (s : State) : Inv (resetEvent p s) :=
  inv_reset.setInput s.host (s.resets + 1) rfl nofun

theorem Inv.startStep {s : State} (h : Inv s) : Inv (startStep s) :=
  (fresh_startStep s).inv (.inr rfl) h.inWf h.outWf rfl rfl rfl

/-! ### The block's steps -/

/-- The codes of R221 are 1 to 8 (10_state.md R42 (c)). -/
theorem code_ne_zero (e : DecodeError) : e.code ≠ 0 := by
  cases e <;> simp [DecodeError.code]

theorem code_le (e : DecodeError) : e.code.toNat ≤ 8 := by
  cases e <;> simp [DecodeError.code]

theorem Inv.raise {s : State} (h : Inv s) (e : DecodeError) : Inv (raise e s) :=
  { h with
    errPhase := iff_of_true (code_ne_zero e) rfl
    errRange := code_le e
    errRegs := fun h0 => absurd h0 (code_ne_zero e)
    body := nofun
    fields := nofun
    done := nofun
    fresh := nofun }

/-- The product of two `u32` is held exactly in `PIXEL_COUNT` (10_state.md R30). -/
theorem acceptHeader_pixelCount_toNat (w h : BitVec 32) (ch cs : Byte) (s : State) :
    (acceptHeader w h ch cs s).pixelCount.toNat = w.toNat * h.toNat := by
  have := u32_mul_lt w h
  rw [acceptHeader_pixelCount, BitVec.toNat_ofNat, Nat.mod_eq_of_lt (by omega)]

/-- Outside ERROR there is no error code. -/
theorem Inv.errCode_eq_zero {s : State} (h : Inv s) (hp : s.phase ≠ .error) : s.errCode = 0 := by
  by_contra hc
  exact hp (h.errPhase.1 hc)

theorem Inv.acceptHeader {s : State} (h : Inv s) (hp : s.phase = .header) {ht w : BitVec 32} {ch cs : Byte}
    (hl : 22 ≤ s.inLen) (hch : ch = 3 ∨ ch = 4) (hcs : cs = 0 ∨ cs = 1) : Inv (acceptHeader w ht ch cs s) :=
  { h with
    errPhase := by simp [h.errCode_eq_zero (by simp [hp])]
    product := acceptHeader_pixelCount_toNat w ht ch cs s
    counts := by simp [(h.fresh (.inr hp)).outCount]
    cursorIn := Nat.zero_le _
    body := fun _ => Nat.sub_add_cancel hl
    fields := fun _ => ⟨hch, hcs⟩
    done := nofun
    fresh := nofun }

/-- A token whose pixels fit leaves in `PREV` the last pixel it put into `OUT` (R42 (e)). -/
theorem lastPixel_tokenEffects {i : Instr} {s : State}
    (hr : s.outCount.toNat + pixelsProduced i ≤ s.pixelCount.toNat) : LastPixel (tokenEffects i s) := by
  have hpos := pixelsProduced_pos i
  have hc := tokenEffects_outCount_toNat hr
  have read : ∀ j, j < 4 → (tokenEffects i s).outMem.read (4 * ((tokenEffects i s).outCount.toNat - 1) + j) =
      (pixelBytes (newPrev i s))[j]? := by
    intro j hj
    rw [tokenEffects_read hr, if_pos (by omega)]
    congr 1
    omega
  refine ⟨fun h0 => ?_, fun _ => ⟨read 0 ?_, read 1 ?_, read 2 ?_, read 3 ?_⟩⟩
  · rw [h0] at hc
    simp at hc
    omega
  all_goals decide

/-- A token puts a pixel only into the slot it hashes to, so R43 is kept. -/
theorem slots_tokenEffects {s : State} (h : ∀ k : Slot, pixelHash s.cache[k] = k ∨ s.cache[k] = ⟨0, 0, 0, 0⟩)
    (i : Instr) (k : Slot) :
    pixelHash (tokenEffects i s).cache[k] = k ∨ (tokenEffects i s).cache[k] = ⟨0, 0, 0, 0⟩ := by
  change pixelHash (cacheGet (newCache i s) k) = k ∨ cacheGet (newCache i s) k = _
  rw [newCache]
  split
  · rw [cacheGet_insert]
    split
    · exact .inl ‹_›
    · exact h k
  · exact h k

theorem Inv.tokenEffects {s : State} (h : Inv s) (hp : s.phase = .body) {i : Instr}
    (hb : s.cursor + i.length ≤ s.bodyLen) (hr : s.outCount.toNat + pixelsProduced i ≤ s.pixelCount.toNat) :
    Inv (tokenEffects i s) :=
  { h with
    outWf := emitRun_outWf _ _ h.outWf
    counts := (tokenEffects_outCount_toNat hr).trans_le hr
    cursorIn := hb
    done := fun hd => nomatch hp.symm.trans hd
    fresh := fun hf => by rcases hf with hf | hf <;> cases hp.symm.trans hf
    last := lastPixel_tokenEffects hr
    slots := slots_tokenEffects h.slots i }

/-- FINISH with every pixel made ends the decode. -/
theorem Inv.finish {s : State} (h : Inv s) (hp : s.phase = .body) (hb : s.cursor = s.bodyLen)
    (hc : s.outCount = s.pixelCount) : Inv { s with phase := .done } :=
  { h with
    errPhase := by simp [h.errCode_eq_zero (by simp [hp])]
    body := nofun
    fields := fun _ => h.fields (.inl hp)
    done := fun _ => ⟨hb, hc⟩
    fresh := nofun }

/-- The block's own step keeps the invariant. -/
theorem Inv.blockStep {s t : State} (h : Inv s) (hst : blockStep Config.params s = .next t) : Inv t := by
  rcases blockStep_next hst with ⟨-, rfl⟩ | ⟨hp, hst⟩ | ⟨hp, -, hst⟩ | ⟨hp, hb, hst⟩
  · exact h
  · rcases headerStep_default_cases s with ⟨e, -, he⟩ | ⟨w, ht, ch, cs, hl, hch, hcs, he⟩ <;>
      cases he.symm.trans hst
    · exact h.raise e
    · exact h.acceptHeader hp hl hch hcs
  · rcases tokenStep_next hst with ⟨e, -, rfl⟩ | ⟨i, hb, hr, rfl⟩
    · exact h.raise e
    · exact h.tokenEffects hp hb hr
  · rcases finishStep_cases s with ⟨hc, he⟩ | ⟨-, he⟩ <;> cases he.symm.trans hst
    · exact h.finish hp hb hc
    · exact h.raise _

/-- Every step of block and host keeps the invariant. -/
theorem Inv.step {s t : State} (h : Inv s) (hst : step s = .next t) : Inv t := by
  have hbody : s.busy = false → s.phase ≠ .body := fun hn hp => by
    simp [(busy_iff s).2 (.inr hp)] at hn
  obtain ⟨rest, hb | ⟨hn, addr, bytes, rfl⟩ | ⟨hn, len, rfl⟩ | ⟨-, rfl⟩ | rfl⟩ := step_next hst
  · exact (h.withHost rest).blockStep hb
  · exact h.setInput rest s.resets (Memory.wf_writeBytes bytes h.inWf addr) fun _ => rfl
  · exact h.setInput rest s.resets h.inWf fun hp => absurd hp (hbody hn)
  · exact (h.withHost rest).startStep
  · exact inv_resetEvent _ _

/-! ### The statements -/

/-- Settles O42: `step_next` lists what a step can do, and each of its updates keeps the invariant. -/
theorem everyStepKeepsTheInvariant : Obligations.EveryStepKeepsTheInvariant :=
  fun _ _ h hst => h.step hst

/-- Settles O41: the state after reset is the initial decode state, with empty memories and no error. -/
theorem resetMeetsTheInvariant : Obligations.ResetMeetsTheInvariant := inv_reset

/-- Settles O38: the cache column by `cacheGet_init`, every other register as `State.reset` sets it. -/
theorem resetValues : Obligations.ResetValues :=
  ⟨fresh_reset.prev, fresh_reset.seed, fresh_reset.slots, fresh_reset.cursor, fresh_reset.outCount,
    fresh_reset.width, fresh_reset.height, fresh_reset.channels, fresh_reset.colorspace,
    fresh_reset.pixelCount, fresh_reset.bodyLen, rfl, rfl, rfl, rfl, rfl, rfl, rfl⟩

/-- Settles O39: the block's own step in these phases is no change. -/
theorem blockRestsOutsideADecode : Obligations.BlockRestsOutsideADecode :=
  fun _ _ hm hp => step_rest hm hp

theorem done_iff (s : State) : s.done = true ↔ s.phase = .done := by
  simp [State.done]

theorem error_iff (s : State) : s.error = true ↔ s.phase = .error := by
  simp [State.error]

/-- Settles O40: each level is a test of PHASE, and the five phases are distinct. -/
theorem statusLevels : Obligations.StatusLevels := by
  intro s
  refine ⟨busy_iff s, done_iff s, error_iff s, ?_⟩
  simp only [← Bool.not_eq_true, busy_iff, done_iff, error_iff]
  cases s.phase <;> decide

end Sys2Proof.Machine
end

section
/-! PROOFS, family 20_memory.md: the memories through a step (O44, O45). Only a token writes `OUT`, no step of the
block writes `IN`, and of the host's moves only a reset touches `OUT`. -/

namespace Sys2Proof.Machine

/-! ### The block's own step -/

/-- What the block's own step does to the memories: the input stays, and only a token whose pixels fit
writes `OUT` (20_memory.md R50, R51). -/
theorem blockStep_memories {p : Config.Params} {s t : State} (h : blockStep p s = .next t) :
    t.inMem = s.inMem ∧ t.inLen = s.inLen ∧ t.resets = s.resets ∧
      (t.outMem = s.outMem ∨
        ∃ i, s.outCount.toNat + pixelsProduced i ≤ s.pixelCount.toNat ∧ t = tokenEffects i s) := by
  rcases blockStep_next h with ⟨-, rfl⟩ | ⟨-, hst⟩ | ⟨-, -, hst⟩ | ⟨-, -, hst⟩
  · exact ⟨rfl, rfl, rfl, .inl rfl⟩
  · rcases headerStep_cases p s with ⟨e, -, he⟩ | ⟨w, ht, ch, cs, -, -, -, -, he⟩ <;> cases he.symm.trans hst <;>
      exact ⟨rfl, rfl, rfl, .inl rfl⟩
  · rcases tokenStep_next hst with ⟨e, -, rfl⟩ | ⟨i, -, hroom, rfl⟩
    · exact ⟨rfl, rfl, rfl, .inl rfl⟩
    · exact ⟨rfl, rfl, rfl, .inr ⟨i, hroom, rfl⟩⟩
  · rcases finishStep_cases s with ⟨-, he⟩ | ⟨-, he⟩ <;> cases he.symm.trans hst <;>
      exact ⟨rfl, rfl, rfl, .inl rfl⟩

/-! ### The host's moves -/

/-- What a host's move that is not refused does. -/
theorem hostStep_next {p : Config.Params} {move : HostMove} {s t : State} :
    hostStep p move s = .next t → match move with
    | .wait => blockStep p s = .next t
    | .writeIn addr bytes => t = { s with inMem := s.inMem.writeBytes addr bytes }
    | .setInLen len => t = { s with inLen := len }
    | .start => t = startStep s
    | .reset => t = resetEvent p s := by
  intro h
  cases move with
  | wait => exact h
  | writeIn _ _ | setInLen _ | start =>
    simp only [hostStep] at h
    split_ifs at h
    cases h; rfl
  | reset => cases h; rfl

/-- The step that takes a move off the host's list. -/
theorem step_of_host_cons {s : State} {move : HostMove} {rest : List HostMove} (h : s.host = move :: rest) :
    step s = hostStep Config.params move (s.withHost rest) := by
  rw [step_eq, h]

/-! ### The output grows at its end -/

/-- A byte of `OUT` that differs belongs to the pixels appended from `s` to `t`, and they are declared ones
(R51, 42_token_dispatch.md R153). -/
def AppendsOnly (s t : State) : Prop :=
  ∀ a, t.outByte a ≠ s.outByte a →
    4 * s.outCount.toNat ≤ a ∧ a < 4 * t.outCount.toNat ∧ a < 4 * t.pixelCount.toNat

theorem appendsOnly_of_outMem_eq {s t : State} (hm : t.outMem = s.outMem) (hr : t.resets = s.resets) :
    AppendsOnly s t :=
  fun a ha => absurd (by rw [State.outByte, State.outByte, hm, hr]) ha

theorem appendsOnly_tokenEffects {i : Instr} {s : State}
    (hroom : s.outCount.toNat + pixelsProduced i ≤ s.pixelCount.toNat) : AppendsOnly s (tokenEffects i s) := by
  intro a ha
  have he := emits_effects hroom
  have hin : ¬ (a < 4 * s.outCount.toNat ∨ 4 * (s.outCount.toNat + pixelsProduced i) ≤ a) :=
    fun ho => ha (he.others a ho)
  have hpc : (tokenEffects i s).pixelCount = s.pixelCount := rfl
  rw [he.count, hpc]
  omega

theorem blockStep_appendsOnly {p : Config.Params} {s t : State} (h : blockStep p s = .next t) :
    AppendsOnly s t := by
  obtain ⟨-, -, hr, hm | ⟨i, hroom, rfl⟩⟩ := blockStep_memories h
  · exact appendsOnly_of_outMem_eq hm hr
  · exact appendsOnly_tokenEffects hroom

/-! ### The statements -/

/-- Settles O44: the block's own step appends only, and a host's move other than a reset leaves `OUT` as it
was. -/
theorem outputIsAppendOnly : Obligations.OutputIsAppendOnly := by
  intro s t hst hreset
  change AppendsOnly s t
  cases hh : s.host with
  | nil => exact blockStep_appendsOnly (step_block hh ▸ hst)
  | cons move rest =>
    have hmove := hostStep_next (step_of_host_cons hh ▸ hst)
    cases move with
    | wait => exact blockStep_appendsOnly (p := Config.params) (s := s.withHost rest) hmove
    | writeIn _ _ | setInLen _ | start => subst hmove; exact appendsOnly_of_outMem_eq rfl rfl
    | reset => exact absurd (by simp [hh]) hreset

/-- Settles O45: neither the block's own step nor START writes the input, and no reset renews the bytes that
nothing has written. -/
theorem blockNeverWritesTheInput : Obligations.BlockNeverWritesTheInput := by
  intro s t hs hst hmove
  have hkept : t.inMem = s.inMem ∧ t.inLen = s.inLen ∧ t.resets = s.resets := by
    rcases hmove with hblock | hstart
    · obtain ⟨hm, hl, hr, -⟩ := blockStep_memories (step_of_blockMoves hblock ▸ hst)
      exact ⟨hm, hl, hr⟩
    · obtain rfl : t = startStep (s.withHost hs) := hostStep_next (step_of_host_cons hstart ▸ hst)
      exact ⟨rfl, rfl, rfl⟩
  obtain ⟨hm, hl, hr⟩ := hkept
  exact ⟨hm, hl, fun a => by rw [State.inByte, State.inByte, hm, hr]⟩

end Sys2Proof.Machine
end

section
/-! PROOFS, family 30_encoding.md: the tokens' encoding, the tag map, the written forms, and the container (O1 to O7,
O33). That the decoder reads back what the encoder writes is proved first; that it reads nothing else, and what it
reads from written tokens and words, follow from it. -/

namespace Sys2Proof.Machine

/-! ### Decoding an encoding (R84, R85) -/

/-- `EncodedLength.Statement` for every token. -/
theorem encodedLength (i : Instr) : Laws.EncodedLength.Statement i := by
  cases i with
  | rgb r g b => exact Laws.EncodedLength.rgb r g b
  | rgba r g b a => exact Laws.EncodedLength.rgba r g b a
  | index i => exact Laws.EncodedLength.index i
  | diff r g b => exact Laws.EncodedLength.diff r g b
  | luma g r b => exact Laws.EncodedLength.luma g r b
  | run n => exact Laws.EncodedLength.run n

/-- The fields of a token stand in its bytes. -/
theorem tokenOf_encode {i : Instr} (hw : i.WellFormed = true) {t : Byte} {bs : List Byte}
    (he : encode i = t :: bs) (rest : List Byte) : tokenOf t (bs ++ rest) = i := by
  cases i with
  | rgb r g b => cases he; rfl
  | rgba r g b a => cases he; rfl
  | index i =>
    cases he
    obtain ⟨hk, hp⟩ := classify_index i
    simp only [tokenOf, hk, hp]
  | diff r g b =>
    cases he
    obtain ⟨hk, hr, hg, hb⟩ := classify_diff r g b
    simp only [tokenOf, hk, hr, hg, hb]
  | luma g r b =>
    cases he
    obtain ⟨hk, hp⟩ := classify_luma g
    obtain ⟨hr, hb⟩ := nibbles r b
    simp only [tokenOf, hk, hp, List.cons_append, List.getD_cons_zero, hr, hb]
  | run n =>
    cases he
    obtain ⟨hk, hp⟩ := classify_run n (of_decide_eq_true hw)
    simp only [tokenOf, hk, hp]

theorem decode_encode {i : Instr} (hw : i.WellFormed = true) (rest : List Byte) :
    decode (encode i ++ rest) = .ok i rest := by
  obtain ⟨hlen, -, -, t, bs, he, ht⟩ := encodedLength i hw
  have hown : tokenLength t = bs.length + 1 := by rw [ht, ← hlen, he, List.length_cons]
  rw [he, List.cons_append, decode_whole rest hown, tokenOf_encode hw he]

/-! ### Decoding any bytes (R88, R95) -/

theorem decode_of_le {t : Byte} {bs : List Byte} (h : tokenLength t ≤ bs.length + 1) :
    decode (t :: bs) = .ok (tokenOf t bs) (bs.drop (tokenLength t - 1)) := by
  rw [decode, if_neg (by omega)]

theorem decode_of_lt {t : Byte} {bs : List Byte} (h : bs.length + 1 < tokenLength t) :
    decode (t :: bs) = .reject (.truncated (tokenLength t) (bs.length + 1)) := by
  rw [decode, if_pos h]

/-- What the decoder takes is a tag with as many bytes after it as the tag tells. -/
theorem decode_ok {bs rest : List Byte} {i : Instr} (h : decode bs = .ok i rest) :
    ∃ t own, bs = t :: own ++ rest ∧ tokenLength t = own.length + 1 := by
  cases bs with
  | nil => cases h
  | cons t bs =>
    rcases Nat.lt_or_ge (bs.length + 1) (tokenLength t) with hl | hl
    · rw [decode_of_lt hl] at h
      cases h
    · rw [decode_of_le hl] at h
      cases h
      have hpos := (tokenLength_bounds t).1
      refine ⟨t, bs.take (tokenLength t - 1), ?_, ?_⟩
      · rw [List.cons_append, List.take_append_drop]
      · rw [List.length_take]
        omega

/-- Every byte is the tag of a token (R87, R95): a literal's, or a selector with a payload, which in a RUN tag is
at most 61 (R92). -/
theorem tag_cases : ∀ t : Byte,
    t = 0xFE ∨ t = 0xFF ∨ t = 0b00#2 ++ payload t ∨
    t = 0b01#2 ++ t.extractLsb' 4 2 ++ t.extractLsb' 2 2 ++ t.extractLsb' 0 2 ∨
    t = 0b10#2 ++ payload t ∨ (t = 0b11#2 ++ payload t ∧ (payload t).toNat ≤ 61) := by decide

theorem nibbles_append : ∀ b : Byte, b = b.extractLsb' 4 4 ++ b.extractLsb' 0 4 := by decide

/-- A tag with as many bytes after it as it tells is the encoding of some token. -/
theorem exists_encode {t : Byte} {own : List Byte} (h : tokenLength t = own.length + 1) :
    ∃ i : Instr, i.WellFormed = true ∧ encode i = t :: own := by
  rcases tag_cases t with rfl | rfl | ht | ht | ht | ⟨ht, hn⟩
  · match own, h with
    | [r, g, b], _ => exact ⟨.rgb r g b, rfl, rfl⟩
  · match own, h with
    | [r, g, b, a], _ => exact ⟨.rgba r g b a, rfl, rfl⟩
  · rw [ht, Laws.EncodedLength.tag_index] at h
    obtain rfl := List.eq_nil_of_length_eq_zero (by omega : own.length = 0)
    exact ⟨.index (payload t), rfl, by rw [encode, ← ht]⟩
  · rw [ht, Laws.EncodedLength.tag_diff] at h
    obtain rfl := List.eq_nil_of_length_eq_zero (by omega : own.length = 0)
    exact ⟨.diff (t.extractLsb' 4 2) (t.extractLsb' 2 2) (t.extractLsb' 0 2), rfl, by rw [encode, ← ht]⟩
  · rw [ht, Laws.EncodedLength.tag_luma] at h
    obtain ⟨b, rfl⟩ := List.length_eq_one_iff.1 (by omega : own.length = 1)
    exact ⟨.luma (payload t) (b.extractLsb' 4 4) (b.extractLsb' 0 4), rfl,
      by rw [encode, ← ht, ← nibbles_append]⟩
  · rw [ht, Laws.EncodedLength.tag_run _ hn] at h
    obtain rfl := List.eq_nil_of_length_eq_zero (by omega : own.length = 0)
    exact ⟨.run (payload t), decide_eq_true hn, by rw [encode, ← ht]⟩

/-! ### The tag map (R87, R100, R101) -/

theorem selector_toNat (t : Byte) : (selector t).toNat = t.toNat / 64 := by
  have := t.isLt
  rw [selector, BitVec.extractLsb'_toNat, Nat.shiftRight_eq_div_pow]
  omega

theorem payload_toNat (t : Byte) : (payload t).toNat = t.toNat % 64 := by
  rw [payload, BitVec.extractLsb'_toNat, Nat.shiftRight_zero]

/-- `classify` on the number that the tag is. -/
theorem classify_eq (t : Byte) : classify t =
    if t.toNat = 0xFE then (.rgb, 4, 1)
    else if t.toNat = 0xFF then (.rgba, 5, 1)
    else if t.toNat / 64 = 0 then (.index, 1, 1)
    else if t.toNat / 64 = 1 then (.diff, 1, 1)
    else if t.toNat / 64 = 2 then (.luma, 2, 1)
    else (.run, 1, t.toNat % 64 + 1) := by
  simp only [classify, ← BitVec.toNat_inj, selector_toNat, payload_toNat]
  rfl

/-- A row of the mask and match form takes the bytes of its kind and no others. -/
theorem takes_iff_kind : ∀ row ∈ opcodeRows, ∀ t : Byte, row.takes t = decide ((classify t).1 = row.kind) := by
  decide

/-! ### The written forms (R98) -/

/-- The textual form of a token: its operands, the biases taken off (R90 to R92, R98). -/
def written : Instr → AsmToken
  | .rgb r g b => .rgb r.toNat g.toNat b.toNat
  | .rgba r g b a => .rgba r.toNat g.toNat b.toNat a.toNat
  | .index i => .index i.toNat
  | .diff r g b => .diff (diffDelta r) (diffDelta g) (diffDelta b)
  | .luma g r b => .luma (lumaGreen g) ((r.toNat : Int) - 8) ((b.toNat : Int) - 8)
  | .run n => .run (runLength n)

/-- The byte column of R98 is the layout of R85. -/
theorem written_bytes (i : Instr) : (written i).bytes = encode i := by
  cases i with
  | rgb r g b => simp [written, AsmToken.bytes, encode]
  | rgba r g b a => simp [written, AsmToken.bytes, encode]
  | index i =>
    have tag : ∀ i : BitVec 6, BitVec.ofNat 8 i.toNat = 0b00#2 ++ i := by decide
    rw [written, AsmToken.bytes, encode, tag]
  | diff r g b =>
    have tag : ∀ r g b : BitVec 2,
        BitVec.ofInt 8 (0x40 + 16 * (diffDelta r + 2) + 4 * (diffDelta g + 2) + (diffDelta b + 2)) =
          0b01#2 ++ r ++ g ++ b := by decide
    rw [written, AsmToken.bytes, encode, tag]
  | luma g r b =>
    have tag : ∀ g : BitVec 6, BitVec.ofInt 8 (0x80 + (lumaGreen g + 32)) = 0b10#2 ++ g := by decide
    have deltas : ∀ r b : BitVec 4,
        BitVec.ofInt 8 (16 * ((r.toNat : Int) - 8 + 8) + ((b.toNat : Int) - 8 + 8)) = r ++ b := by decide
    rw [written, AsmToken.bytes, encode, tag, deltas]
  | run n =>
    have tag : ∀ n : BitVec 6, BitVec.ofNat 8 (0xC0 + (runLength n - 1)) = 0b11#2 ++ n := by decide
    rw [written, AsmToken.bytes, encode, tag]

theorem lumaDelta_eq (g : BitVec 6) (f : BitVec 4) : lumaDelta g f = lumaGreen g + ((f.toNat : Int) - 8) := by
  rw [lumaDelta]
  omega

/-- A token is what its written form stands for. -/
theorem asmMeans_written (i : Instr) : AsmMeans (written i) i := by
  cases i with
  | luma g r b => exact ⟨rfl, lumaDelta_eq g r, lumaDelta_eq g b⟩
  | _ => simp [written, AsmMeans]

/-- A number in range is the value of a field. -/
theorem exists_toNat_eq {w n : Nat} (h : n < 2 ^ w) : ∃ f : BitVec w, f.toNat = n :=
  ⟨BitVec.ofNatLT n h, rfl⟩

theorem exists_byte_eq {n : Nat} (h : n ≤ 255) : ∃ c : Byte, c.toNat = n :=
  exists_toNat_eq (Nat.lt_succ_of_le h)

/-- A signed number in range is the value of a field with the bias taken off. -/
theorem exists_biased_eq {w bias : Nat} {d : Int} (h0 : -(bias : Int) ≤ d) (h1 : d + bias < 2 ^ w) :
    ∃ f : BitVec w, (f.toNat : Int) - bias = d := by
  obtain ⟨f, hf⟩ := exists_toNat_eq (w := w) (n := (d + bias).toNat) (by zify; omega)
  exact ⟨f, by omega⟩

/-- Operands in range are the written form of a token. -/
theorem exists_written {a : AsmToken} (h : a.inRange = true) :
    ∃ i : Instr, i.WellFormed = true ∧ written i = a := by
  cases a with
  | rgb r g b =>
    obtain ⟨hr, hg, hb⟩ := of_decide_eq_true h
    obtain ⟨r, rfl⟩ := exists_byte_eq hr
    obtain ⟨g, rfl⟩ := exists_byte_eq hg
    obtain ⟨b, rfl⟩ := exists_byte_eq hb
    exact ⟨.rgb r g b, rfl, rfl⟩
  | rgba r g b a =>
    obtain ⟨hr, hg, hb, ha⟩ := of_decide_eq_true h
    obtain ⟨r, rfl⟩ := exists_byte_eq hr
    obtain ⟨g, rfl⟩ := exists_byte_eq hg
    obtain ⟨b, rfl⟩ := exists_byte_eq hb
    obtain ⟨a, rfl⟩ := exists_byte_eq ha
    exact ⟨.rgba r g b a, rfl, rfl⟩
  | index i =>
    obtain ⟨i, rfl⟩ := exists_toNat_eq (w := 6) (Nat.lt_succ_of_le (of_decide_eq_true h))
    exact ⟨.index i, rfl, rfl⟩
  | diff dr dg db =>
    obtain ⟨⟨hr, hr'⟩, ⟨hg, hg'⟩, hb, hb'⟩ := of_decide_eq_true h
    obtain ⟨r, rfl⟩ := exists_biased_eq (w := 2) (bias := 2) hr (by omega)
    obtain ⟨g, rfl⟩ := exists_biased_eq (w := 2) (bias := 2) hg (by omega)
    obtain ⟨b, rfl⟩ := exists_biased_eq (w := 2) (bias := 2) hb (by omega)
    exact ⟨.diff r g b, rfl, rfl⟩
  | luma dg drg dbg =>
    obtain ⟨⟨hg, hg'⟩, ⟨hr, hr'⟩, hb, hb'⟩ := of_decide_eq_true h
    obtain ⟨g, rfl⟩ := exists_biased_eq (w := 6) (bias := 32) hg (by omega)
    obtain ⟨r, rfl⟩ := exists_biased_eq (w := 4) (bias := 8) hr (by omega)
    obtain ⟨b, rfl⟩ := exists_biased_eq (w := 4) (bias := 8) hb (by omega)
    exact ⟨.luma g r b, rfl, rfl⟩
  | run n =>
    obtain ⟨hn, hn'⟩ := of_decide_eq_true h
    obtain ⟨p, hp⟩ := exists_toNat_eq (w := 6) (n := n - 1) (by omega)
    refine ⟨.run p, decide_eq_true (by omega), ?_⟩
    rw [written, runLength, hp, Nat.sub_add_cancel hn]

/-- A table word whose bytes begin with the encoding of a token is read as that token. -/
theorem decodeTableWord_of_encode {nbits w : Nat} {i : Instr} (rest : List Byte) (hw : i.WellFormed = true)
    (h : tableBytes nbits w = encode i ++ rest) : decodeTableWord nbits w = some i := by
  rw [decodeTableWord, h, decode_encode hw, Decoded.instr?]

/-! ### The container (R80, R99) -/

/-- When the input from an address on is two pieces, each is read at its own address. -/
theorem inBytes_eq_append {s : State} {a n : Nat} {x y : List Byte} (h : s.inBytes a n = x ++ y) :
    s.inBytes a x.length = x ∧ s.inBytes (a + x.length) y.length = y := by
  obtain rfl : n = x.length + y.length := by
    rw [← List.length_append, ← h, inBytes_length]
  rw [inBytes_add] at h
  exact List.append_inj h (inBytes_length ..)

theorem imageBytes_length (w h : BitVec 32) (ch cs : Byte) (body : List Byte) :
    (imageBytes w h ch cs body).length = 22 + body.length := by
  simp [imageBytes, magic, be32Bytes, trailer]
  omega

/-- The parts of a container in the input, each at its address. -/
theorem inBytes_container {s : State} {w h : BitVec 32} {ch cs : Byte} {body : List Byte} {n : Nat}
    (hin : s.inBytes 0 n = imageBytes w h ch cs body) :
    s.inBytes 0 4 = magic ∧ s.inBytes 4 4 = be32Bytes w ∧ s.inBytes 8 4 = be32Bytes h ∧
    s.inByte 12 = ch ∧ s.inByte 13 = cs ∧ s.inBytes 14 body.length = body ∧
    s.inBytes (14 + body.length) 8 = trailer := by
  simp only [imageBytes, List.append_assoc] at hin
  obtain ⟨hm, hin⟩ := inBytes_eq_append hin
  obtain ⟨hw, hin⟩ := inBytes_eq_append hin
  obtain ⟨hh, hin⟩ := inBytes_eq_append hin
  obtain ⟨hf, hin⟩ := inBytes_eq_append hin
  obtain ⟨hb, ht⟩ := inBytes_eq_append hin
  have hfields : [s.inByte 12, s.inByte 13] = [ch, cs] := hf
  obtain ⟨hch, hcs⟩ : s.inByte 12 = ch ∧ s.inByte 13 = cs := by simpa using hfields
  exact ⟨hm, hw, hh, hch, hcs, hb, ht⟩

/-- The HEADER step on a container with legal header fields, at the default parameters: the product of two `u32`
is within the limit. -/
theorem headerStep_container {s : State} {w h : BitVec 32} {ch cs : Byte} {body : List Byte}
    (hch : ch = 3 ∨ ch = 4) (hcs : cs = 0 ∨ cs = 1) (hlen : s.inLen = 22 + body.length)
    (hin : s.inBytes 0 s.inLen = imageBytes w h ch cs body) :
    headerStep Config.params s = .next (acceptHeader w h ch cs s) := by
  obtain ⟨hm, hw, hh, hc12, hc13, -, ht⟩ := inBytes_container hin
  have htr : s.inBytes (s.inLen - 8) 8 = trailer := by
    rw [← ht]
    congr 1
    omega
  have hcap : ¬ Config.params.maxPixels < w.toNat * h.toNat := by
    have := u32_mul_lt w h
    simp only [Config.params]
    omega
  rw [headerStep_long _ (by omega), hw, hh, hc12, hc13, bigEndian_be32Bytes, bigEndian_be32Bytes,
    if_neg (not_not.2 hm), if_neg (not_not.2 htr), if_neg (by tauto), if_neg (by tauto), if_neg hcap]

/-! ### The statements -/

/-- Settles O1: the tag tells the length of the encoding, and the fields stand in its bytes. -/
theorem decodeReadsBackEveryToken : Obligations.DecodeReadsBackEveryToken :=
  fun _ rest hw => decode_encode hw rest

/-- Settles O2: what the decoder takes is the encoding of some token, and by `decode_encode` that token is the one
it answers. -/
theorem decodedBytesAreTheEncoding : Obligations.DecodedBytesAreTheEncoding := by
  intro bs i rest h
  obtain ⟨t, own, rfl, hown⟩ := decode_ok h
  obtain ⟨j, hw, he⟩ := exists_encode hown
  rw [← he] at h ⊢
  obtain rfl : j = i := by
    have hj := (decode_encode hw rest).symm.trans h
    injection hj
  exact ⟨hw, rfl⟩

/-- Settles O3: the decoder compares the bytes with the length the tag tells, and does nothing else before it
answers a token. -/
theorem decodeRejectsOnlyTruncation : Obligations.DecodeRejectsOnlyTruncation :=
  ⟨rfl, fun t bs => ⟨fun h => ⟨tokenOf t bs, decode_of_le h, tokenOf_length t bs⟩, decode_of_lt⟩⟩

/-- Settles O4: each range of R87 is one branch of `classify` on the tag as a number. -/
theorem classifyFollowsTagMap : Obligations.ClassifyFollowsTagMap := by
  intro t
  rw [classify_eq]
  refine ⟨fun h => ?index, fun h => ?diff, fun h => ?luma, fun h => ?run, fun h => ?rgb, fun h => ?rgba⟩
  case index => rw [if_neg (by omega), if_neg (by omega), if_pos (by omega)]
  case diff => rw [if_neg (by omega), if_neg (by omega), if_neg (by omega), if_pos (by omega)]
  case luma => rw [if_neg (by omega), if_neg (by omega), if_neg (by omega), if_neg (by omega), if_pos (by omega)]
  case run =>
    have hcount : t.toNat % 64 = t.toNat - 0xC0 := by omega
    rw [if_neg (by omega), if_neg (by omega), if_neg (by omega), if_neg (by omega), if_neg (by omega), hcount]
  case rgb => rw [if_pos h]
  case rgba => rw [if_neg (by omega), if_pos h]

/-- Settles O5: a row takes a byte exactly when its kind is the byte's, and the six rows have the six kinds. -/
theorem maskRowsSelectOneToken : Obligations.MaskRowsSelectOneToken := by
  intro t
  rw [List.filter_congr fun row hrow => takes_iff_kind row hrow t]
  cases (classify t).1 <;> rfl

/-- Settles O6: the bytes of each word are the token's encoding, with zeros after it. -/
theorem writtenWordsDecode : Obligations.WrittenWordsDecode :=
  ⟨decodeTableWord_of_encode [0] rfl rfl, decodeTableWord_of_encode [] rfl rfl,
    decodeTableWord_of_encode [0, 0, 0, 0] rfl rfl, decodeTableWord_of_encode [0, 0, 0, 0] rfl rfl,
    decodeTableWord_of_encode [0, 0, 0] rfl rfl, decodeTableWord_of_encode [0, 0, 0, 0] rfl rfl,
    decodeTableWord_of_encode [0] rfl rfl⟩

/-- Settles O7: operands in range are the written form of a token, whose bytes are its encoding. -/
theorem writtenTokensDecodeToTheirOperands : Obligations.WrittenTokensDecodeToTheirOperands := by
  intro a ha
  obtain ⟨i, hw, rfl⟩ := exists_written ha
  refine ⟨i, ?_, hw, asmMeans_written i⟩
  simpa only [written_bytes, List.append_nil] using decode_encode hw []

/-- Settles O33: each part of the container is read at its address, so every check passes. -/
theorem headerAcceptsEveryContainer : Obligations.HeaderAcceptsEveryContainer := by
  intro w h ch cs body s hs hmove hphase hch hcs hlen hin
  rw [imageBytes_length] at hlen
  obtain ⟨-, -, -, -, -, hbody, -⟩ := inBytes_container hin
  refine ⟨?_, hbody⟩
  have hbodyLen : s.inLen - minInput = body.length := by
    rw [hlen]
    exact Nat.add_sub_cancel_left ..
  rw [step_header hmove hphase, headerStep_container (s := s.withHost hs) hch hcs hlen hin, acceptHeader,
    withHost_inLen, hbodyLen]
  rfl

end Sys2Proof.Machine
end

section
/-! PROOFS, family 40_header_codec.md: the HEADER step's checks, its effects, and the capacity limit (O30 to O32).
One lemma per check says what the step does when it is the first to fail; that code 8 cannot occur at the default
parameters follows from what each step may raise. -/

namespace Sys2Proof.Machine

/-! ### The first check that fails (R110) -/

theorem headerStep_badMagic (p : Config.Params) {s : State} (hl : 22 ≤ s.inLen) (hm : ¬ MagicOk s) :
    headerStep p s = .next (raise (.badMagic (inWord s 0)) s) := by
  rw [headerStep_long p hl, if_pos (mt (magic_iff s).1 hm), bigEndian_four]

theorem headerStep_badTrailer (p : Config.Params) {s : State} (hl : 22 ≤ s.inLen) (hm : MagicOk s)
    (ht : ¬ TrailerOk s) :
    headerStep p s =
      .next (raise (.badTrailer (inWord s (s.inLen - 8) * 2 ^ 32 + inWord s (s.inLen - 4))) s) := by
  have hlow : s.inLen - 8 + 4 = s.inLen - 4 := by omega
  rw [headerStep_long p hl, if_neg (not_not.2 ((magic_iff s).2 hm)), if_pos (mt (trailer_iff hl).1 ht),
    bigEndian_eight, hlow]

theorem headerStep_badChannels (p : Config.Params) {s : State} (hl : 22 ≤ s.inLen) (hm : MagicOk s)
    (ht : TrailerOk s) (hch : ¬ ChannelsOk s) :
    headerStep p s = .next (raise (.badChannels (s.inByte 12)) s) := by
  rw [headerStep_long p hl, if_neg (not_not.2 ((magic_iff s).2 hm)), if_neg (not_not.2 ((trailer_iff hl).2 ht)),
    if_pos (not_or.1 hch)]

theorem headerStep_badColorspace (p : Config.Params) {s : State} (hl : 22 ≤ s.inLen) (hm : MagicOk s)
    (ht : TrailerOk s) (hch : ChannelsOk s) (hcs : ¬ ColorspaceOk s) :
    headerStep p s = .next (raise (.badColorspace (s.inByte 13)) s) := by
  rw [headerStep_long p hl, if_neg (not_not.2 ((magic_iff s).2 hm)), if_neg (not_not.2 ((trailer_iff hl).2 ht)),
    if_neg (not_and_or.2 (hch.imp not_not.2 not_not.2)), if_pos (not_or.1 hcs)]

/-! ### A header that passes (R114, R117, R118) -/

theorem toNat_ofNat_inWord (s : State) (a : Nat) : (BitVec.ofNat 32 (inWord s a)).toNat = inWord s a := by
  rw [BitVec.toNat_ofNat, Nat.mod_eq_of_lt (inWord_lt s a)]

/-- The default `MAX_PIXELS` admits every pair of 32-bit dimensions. -/
theorem inWord_mul_le_maxPixels (s : State) (a b : Nat) :
    inWord s a * inWord s b ≤ Config.params.maxPixels := by
  have := u32_mul_lt (BitVec.ofNat 32 (inWord s a)) (BitVec.ofNat 32 (inWord s b))
  simp only [toNat_ofNat_inWord] at this
  simp only [Config.params]
  omega

theorem headerStep_default_ok {s : State} (hl : 22 ≤ s.inLen) (hm : MagicOk s) (ht : TrailerOk s)
    (hch : ChannelsOk s) (hcs : ColorspaceOk s) :
    headerStep Config.params s =
      .next (acceptHeader (BitVec.ofNat 32 (inWord s 4)) (BitVec.ofNat 32 (inWord s 8))
        (s.inByte 12) (s.inByte 13) s) := by
  rw [headerStep_ok _ hl hm ht hch hcs, if_neg (inWord_mul_le_maxPixels s 4 8).not_gt]

theorem headerStep_capacity {p : Config.Params} {s : State} (hl : 22 ≤ s.inLen) (hm : MagicOk s)
    (ht : TrailerOk s) (hch : ChannelsOk s) (hcs : ColorspaceOk s)
    (hcap : p.maxPixels < inWord s 4 * inWord s 8) :
    headerStep p s = .next (raise (.capacity p.maxPixels (inWord s 4 * inWord s 8)) s) := by
  rw [headerStep_ok p hl hm ht hch hcs, if_pos hcap]

/-! ### The codes a step may write (60_exceptions.md R221, R229) -/

/-- At the default parameters the block's own step raises one of the codes 1 to 7, or leaves `ERR_CODE`. -/
theorem blockStep_raises_or_keeps {s t : State} (h : blockStep Config.params s = .next t) :
    (∃ e : DecodeError, e.code.toNat ∈ [1, 2, 3, 4, 5, 6, 7] ∧ t = raise e s) ∨ t.errCode = s.errCode := by
  rcases blockStep_next h with ⟨-, rfl⟩ | ⟨-, hst⟩ | ⟨-, -, hst⟩ | ⟨-, -, hst⟩
  · exact .inr rfl
  · rcases headerStep_default_cases s with ⟨e, hcode, he⟩ | ⟨w, ht, ch, cs, -, -, -, he⟩ <;>
      cases he.symm.trans hst
    · exact .inl ⟨e, List.mem_append_left [6, 7] hcode, rfl⟩
    · exact .inr rfl
  · rcases tokenStep_next hst with ⟨e, hcode, rfl⟩ | ⟨i, -, -, rfl⟩
    · exact .inl ⟨e, List.mem_append_right [1, 2, 3, 4, 5] hcode, rfl⟩
    · exact .inr rfl
  · rcases finishStep_cases s with ⟨-, he⟩ | ⟨-, he⟩ <;> cases he.symm.trans hst
    · exact .inr rfl
    · exact .inl ⟨_, by simp [DecodeError.code], rfl⟩

theorem blockStep_errCode_eight {s t : State} (h : blockStep Config.params s = .next t) (h8 : t.errCode = 8) :
    s.errCode = 8 := by
  rcases blockStep_raises_or_keeps h with ⟨e, hcode, rfl⟩ | hkept
  · have he : e.code = 8 := h8
    rw [he] at hcode
    exact absurd hcode (by decide)
  · exact hkept ▸ h8

/-- No step of block and host writes the code 8: START and reset clear the code, and the host's other moves leave
it. -/
theorem step_errCode_eight {s t : State} (h : step s = .next t) (h8 : t.errCode = 8) : s.errCode = 8 := by
  obtain ⟨rest, hblock | ⟨-, addr, bytes, rfl⟩ | ⟨-, len, rfl⟩ | ⟨-, rfl⟩ | rfl⟩ := step_next h
  · exact blockStep_errCode_eight (s := s.withHost rest) hblock h8
  · exact h8
  · exact h8
  · exact absurd (show (0 : BitVec 4) = 8 from h8) (by decide)
  · exact absurd (show (0 : BitVec 4) = 8 from h8) (by decide)

/-! ### The statements -/

/-- Settles O30: the lemma of each check, at the step that the block takes in phase HEADER. -/
theorem headerReportsTheFirstFault : Obligations.HeaderReportsTheFirstFault := by
  intro s hs hmove hphase
  have hstep := step_header hmove hphase
  refine ⟨fun hl => ?tooShort, fun hl hm => ?magic, fun hl hm ht => ?trailer, fun hl hm ht hch => ?channels,
    fun hl hm ht hch hcs => ?colorspace⟩
  case tooShort => exact hstep.trans (headerStep_short _ hl)
  case magic => exact hstep.trans (headerStep_badMagic _ hl hm)
  case trailer => exact hstep.trans (headerStep_badTrailer _ hl hm ht)
  case channels => exact hstep.trans (headerStep_badChannels _ hl hm ht hch)
  case colorspace => exact hstep.trans (headerStep_badColorspace _ hl hm ht hch hcs)

/-- Settles O31: the accepted header's dimensions are the two words read, and their product fits in 64 bits. -/
theorem headerAcceptsAndFillsRegisters : Obligations.HeaderAcceptsAndFillsRegisters := by
  intro s hs hmove hphase hl hm ht hch hcs
  refine ⟨_, (step_header hmove hphase).trans (headerStep_default_ok hl hm ht hch hcs),
    toNat_ofNat_inWord s 4, toNat_ofNat_inWord s 8, ?product, rfl⟩
  rw [acceptHeader_pixelCount_toNat, toNat_ofNat_inWord, toNat_ofNat_inWord]
  rfl

/-- Settles O32: a limit below the product fails the last check of the HEADER step, and at the default parameters
no step writes the code 8. -/
theorem capacityIsCheckedUpFront : Obligations.CapacityIsCheckedUpFront := by
  refine ⟨fun p s hp hhost hphase hl hm ht hch hcs hcap => ?_, fun _ _ => step_errCode_eight⟩
  have hstep : stepWith p s = headerStep p s := by
    rw [stepWith, if_pos hp, hhost, blockStep, hphase]
  exact hstep.trans (headerStep_capacity hl hm ht hch hcs hcap)

end Sys2Proof.Machine
end

section
/-! PROOFS, family 41_color_cache.md: the hash, and what `insert` and `init` leave in the cache (O10 to O13). Each
statement about a slot goes through `cacheGet_insert` and `cacheGet_init`. -/

namespace Sys2Proof.Machine

/-! ### The hash -/

/-- The weights add up to 26, and a channel is at most 255 (41_color_cache.md R130). -/
theorem hashSum_le (p : Pixel) : hashSum p ≤ 26 * 255 := by
  obtain ⟨hr, hg, hb, ha⟩ : p.r.toNat < 256 ∧ p.g.toNat < 256 ∧ p.b.toNat < 256 ∧ p.a.toNat < 256 :=
    ⟨p.r.isLt, p.g.isLt, p.b.isLt, p.a.isLt⟩
  unfold hashSum
  omega

/-- The 8-bit sum is the integer sum modulo 256 (41_color_cache.md R131). -/
theorem wrappingSum_toNat (p : Pixel) :
    (3 * p.r + 5 * p.g + 7 * p.b + 11 * p.a).toNat = hashSum p % 256 := by
  simp [hashSum, BitVec.toNat_add, BitVec.toNat_mul]

/-! ### insert -/

/-- The slot that `insert` writes holds the pixel. -/
theorem cacheGet_insert_self (cache : ColorCache) (p : Pixel) :
    cacheGet (cacheInsert cache p) (pixelHash p) = p := by
  rw [cacheGet_insert, if_pos rfl]

/-- Two caches are equal when `get` reads the same pixel from every slot. -/
theorem cache_ext {c d : ColorCache} (h : ∀ k : Slot, cacheGet c k = cacheGet d k) : c = d :=
  Vector.ext fun i hi => h ⟨i, hi⟩

/-- Of two pixels with one hash the later stands (41_color_cache.md R137). -/
theorem cacheInsert_insert_of_hash_eq (cache : ColorCache) {p q : Pixel} (h : pixelHash p = pixelHash q) :
    cacheInsert (cacheInsert cache p) q = cacheInsert cache q := by
  refine cache_ext fun k => ?_
  simp only [cacheGet_insert, h]
  by_cases hk : pixelHash q = k
  · rw [if_pos hk, if_pos hk]
  · rw [if_neg hk, if_neg hk, if_neg hk]

/-- A pixel that is in its slot already is inserted without a change (41_color_cache.md R138). -/
theorem cacheInsert_of_cacheGet {cache : ColorCache} {p : Pixel} (h : cacheGet cache (pixelHash p) = p) :
    cacheInsert cache p = cache := by
  refine cache_ext fun k => ?_
  rw [cacheGet_insert]
  by_cases hk : pixelHash p = k
  · rw [if_pos hk, ← hk, h]
  · rw [if_neg hk]

/-! ### The statements -/

/-- Settles O10: 64 divides 256, so the sum modulo 256 is the same slot. -/
theorem hashEqualsWrappingHash : Obligations.HashEqualsWrappingHash := by
  intro p
  refine ⟨rfl, hashSum_le p, ?wrapping⟩
  rw [wrappingSum_toNat, Nat.mod_mod_of_dvd _ (by decide)]
  rfl

/-- Settles O11: `cacheGet_insert`, and the spec's example by evaluation. -/
theorem insertOverwritesOneSlot : Obligations.InsertOverwritesOneSlot :=
  ⟨cacheGet_insert, by decide⟩

/-- Settles O12: the slots by `cacheGet_init`; reset, START and the reset event each write `cacheInit`. -/
theorem cacheInitSeedsSlot53 : Obligations.CacheInitSeedsSlot53 :=
  ⟨cacheGet_init 53, fun k hk => (cacheGet_init k).trans (if_neg hk.symm), rfl, rfl, startStep_cache,
    fun _ _ => rfl⟩

/-- Settles O13: the later of two inserts in one slot stands, and a second insert finds its pixel in the slot. -/
theorem insertLastWinsAndIsIdempotent : Obligations.InsertLastWinsAndIsIdempotent := by
  refine ⟨fun cache p q h => ⟨cacheInsert_insert_of_hash_eq cache h, ?laterHeld⟩,
    fun _ _ => cacheInsert_of_cacheGet, fun cache p => ?twice⟩
  case laterHeld => rw [h, cacheGet_insert_self]
  case twice => exact cacheInsert_of_cacheGet (cacheGet_insert_self cache p)

end Sys2Proof.Machine
end

section
/-! PROOFS, family 42_token_dispatch.md: the tokens' common effects, the TOKEN and FINISH steps, and whole decodes (O22
to O24, O26 to O29, O46, O50, O51, O54). `exec_cases` says what a token can do and `step_token`, `step_finish` what a
step in BODY can do. The statements about whole decodes are two inductions: over the fuel of the token loop, and over
the tokens of a stream. -/

namespace Sys2Proof.Machine

/-! ### Raising in a TOKEN or FINISH step -/

/-- The size mismatch with `n` pixels more than emitted: a token's overrun, and FINISH with `n = 0`
(60_exceptions.md R228). -/
theorem raise_sizeMismatch (s : State) (n : Nat) :
    raise (.sizeMismatch s.pixelCount.toNat (s.outCount.toNat + n)) s =
      { s with
        phase := .error
        errCode := 7
        errExpected := s.pixelCount
        errFound := s.outCount + BitVec.ofNat 64 n } := by
  simp [raise, DecodeError.code, DecodeError.expected, DecodeError.found, BitVec.ofNat_add]

/-- FINISH with another count than the declared one (42_token_dispatch.md R158). -/
theorem step_finish_mismatch {s : State} {hs : List HostMove} (hm : BlockMoves s hs) (hp : s.phase = .body)
    (hc : s.cursor = s.bodyLen) (hcount : s.outCount ≠ s.pixelCount) :
    step s = .next
      { s with
        host := hs
        phase := .error
        errCode := 7
        errExpected := s.pixelCount
        errFound := s.outCount } := by
  have hraise := raise_sizeMismatch (s.withHost hs) 0
  rw [Nat.add_zero, BitVec.add_zero] at hraise
  rw [step_finish hm hp hc, if_neg hcount]
  exact congrArg _ hraise

/-- Everything the block's own step can do from a phase other than ERROR: raise one of the codes 1 to 7, or answer a
state that is not in ERROR. -/
theorem blockStep_raises_or_not_error {s t : State} (h : blockStep Config.params s = .next t)
    (hp : s.phase ≠ .error) :
    (∃ e : DecodeError, e.code.toNat ∈ [1, 2, 3, 4, 5, 6, 7] ∧ t = raise e s) ∨ t.phase ≠ .error := by
  rcases blockStep_next h with ⟨-, rfl⟩ | ⟨-, hst⟩ | ⟨-, -, hst⟩ | ⟨-, -, hst⟩
  · exact .inr hp
  · rcases headerStep_default_cases s with ⟨e, hcode, he⟩ | ⟨w, ht, ch, cs, -, -, -, he⟩ <;>
      cases he.symm.trans hst
    · exact .inl ⟨e, List.mem_append_left [6, 7] hcode, rfl⟩
    · exact .inr nofun
  · rcases tokenStep_next hst with ⟨e, hcode, rfl⟩ | ⟨i, -, -, rfl⟩
    · exact .inl ⟨e, List.mem_append_right [1, 2, 3, 4, 5] hcode, rfl⟩
    · exact .inr hp
  · rcases finishStep_cases s with ⟨-, he⟩ | ⟨-, he⟩ <;> cases he.symm.trans hst
    · exact .inr nofun
    · exact .inl ⟨_, by simp [DecodeError.code], rfl⟩

/-! ### Tokens and their bytes -/

/-- The four lengths of a token (30_encoding.md R84). -/
theorem tokenLength_mem : ∀ t : Byte, tokenLength t ∈ [1, 2, 4, 5] := by decide

/-- When the input from an address on decodes to a token, that token is made of the byte there and of as many bytes
after it as the byte tells, all of them among the bytes decoded. -/
theorem decode_inBytes {s : State} {a n : Nat} {i : Instr} {rest : List Byte}
    (h : decode (s.inBytes a n) = .ok i rest) :
    tokenLength (s.inByte a) ≤ n ∧
      i = tokenOf (s.inByte a) (s.inBytes (a + 1) (tokenLength (s.inByte a) - 1)) := by
  cases n with
  | zero => cases h
  | succ n =>
    rw [inBytes_succ] at h
    rcases Nat.lt_or_ge ((s.inBytes (a + 1) n).length + 1) (tokenLength (s.inByte a)) with hl | hl
    · rw [decode_of_lt hl] at h
      cases h
    · rw [decode_of_le hl] at h
      rw [inBytes_length] at hl
      obtain ⟨m, rfl⟩ : ∃ m, n = tokenLength (s.inByte a) - 1 + m :=
        ⟨n - (tokenLength (s.inByte a) - 1), by omega⟩
      rw [inBytes_add, tokenOf_append _ _ (by rw [inBytes_length]; omega)] at h
      cases h
      exact ⟨hl, rfl⟩

/-- The step in BODY whose body bytes from the cursor on decode to a token. -/
theorem step_of_decode {s : State} {hs : List HostMove} {i : Instr} {rest : List Byte} (hm : BlockMoves s hs)
    (hp : s.phase = .body) (hc : s.cursor < s.bodyLen) (hb : 14 + s.bodyLen ≤ s.inLen)
    (hd : decode (s.inBytes (14 + s.cursor) (s.bodyLen - s.cursor)) = .ok i rest) :
    step s = exec i (s.withHost hs) := by
  obtain ⟨hl, rfl⟩ := decode_inBytes hd
  rw [step_token hm hp hc hb, if_neg (by omega)]
  rfl

/-- Everything a step in BODY before the end can do: raise, or carry out a token of the length its tag tells, inside
the body. -/
theorem step_token_cases {s : State} {hs : List HostMove} (hm : BlockMoves s hs) (hp : s.phase = .body)
    (hc : s.cursor < s.bodyLen) (hb : 14 + s.bodyLen ≤ s.inLen) :
    (∃ e : DecodeError, step s = .next (raise e (s.withHost hs))) ∨
    (∃ i : Instr, i.length = tokenLength (s.inByte (14 + s.cursor)) ∧ s.cursor + i.length ≤ s.bodyLen ∧
      step s = .next (tokenEffects i (s.withHost hs))) := by
  rw [step_token hm hp hc hb]
  split
  · exact .inl ⟨_, rfl⟩
  · generalize hi : tokenOf (s.inByte (14 + s.cursor)) _ = i
    have hlen : i.length = tokenLength (s.inByte (14 + s.cursor)) := hi ▸ tokenOf_length _ _
    rcases exec_cases i (s.withHost hs) with ⟨-, he⟩ | ⟨-, he⟩
    · exact .inl ⟨_, he⟩
    · exact .inr ⟨i, hlen, by omega, he⟩

/-- The pixels of a token are as many as its kind gives. -/
theorem tokenPixels_length (prev : Pixel) (cache : Slot → Pixel) (i : Instr) :
    (tokenPixels prev cache i).length = pixelsProduced i := by
  cases i with
  | run n => exact List.length_replicate
  | _ => rfl

/-- A token gives at most 64 pixels, a run with the largest payload. -/
theorem pixelsProduced_le (i : Instr) : pixelsProduced i ≤ 64 := by
  cases i with
  | run n => exact n.isLt
  | _ => simp [pixelsProduced]

/-- How many pixels a stream gives does not depend on where it starts. -/
theorem streamPixels_length (prev : Pixel) (cache : Slot → Pixel) (is : List Instr) :
    (streamPixels prev cache is).length = (is.map pixelsProduced).sum := by
  induction is generalizing prev cache with
  | nil => rfl
  | cons i is ih =>
    rw [streamPixels, List.length_append, tokenPixels_length, ih, List.map_cons, List.sum_cons]

/-! ### A whole decode on any input (R160, R161) -/

/-- A decode has ended: in DONE, or in ERROR with one of the eight codes. -/
def DecodeEnded (t : State) : Prop :=
  t.phase = .done ∨ (t.phase = .error ∧ 1 ≤ t.errCode.toNat ∧ t.errCode.toNat ≤ 8)

theorem decodeEnded_raise (e : DecodeError) (s : State) : DecodeEnded (raise e s) := by
  have hcode : e.code.toNat ≠ 0 := fun h => code_ne_zero e (BitVec.eq_of_toNat_eq h)
  exact .inr ⟨rfl, Nat.one_le_iff_ne_zero.2 hcode, code_le e⟩

theorem DecodeEnded.not_body {s : State} (he : DecodeEnded s) : s.phase ≠ .body := by
  rcases he with hp | ⟨hp, -⟩ <;> rw [hp] <;> decide

theorem runSteps_decodeEnded (k : Nat) {s : State} (hh : s.host = []) (he : DecodeEnded s) :
    runSteps k s = .next s :=
  runSteps_rest k hh (.inr (he.imp id And.left))

/-- The loop of R160 ends when there is no token to read. -/
theorem tokenLoop_of_not (fuel : Nat) {s : State} (h : ¬ (s.phase = .body ∧ s.cursor < s.bodyLen)) :
    tokenLoop fuel s = .next s := by
  cases fuel with
  | zero => rfl
  | succ fuel => rw [tokenLoop, if_neg h]

/-- The loop of R160 and FINISH after it. -/
def loopThenFinish (fuel : Nat) (s : State) : Host.Outcome State Fault Refusal :=
  match tokenLoop fuel s with
  | .next t => finishLoop t
  | .fault r => .fault r
  | .refused r => .refused r

/-- The loop of R160 and FINISH leave a state that is not in BODY as it is. -/
theorem loopThenFinish_of_not_body (fuel : Nat) {s : State} (hp : s.phase ≠ .body) :
    loopThenFinish fuel s = .next s := by
  rw [loopThenFinish, tokenLoop_of_not fuel fun h => hp h.1]
  exact if_neg hp

/-- At the end of the body only FINISH is left. -/
theorem loopThenFinish_of_end (fuel : Nat) {s : State} (hp : s.phase = .body) (hc : s.cursor = s.bodyLen) :
    loopThenFinish fuel s = finishStep s := by
  rw [loopThenFinish, tokenLoop_of_not fuel fun h => h.2.ne hc]
  exact if_pos hp

/-- A round of the loop is a TOKEN step. -/
theorem loopThenFinish_succ (fuel : Nat) {s t : State} (hp : s.phase = .body) (hc : s.cursor < s.bodyLen)
    (ht : tokenStep s = .next t) : loopThenFinish (fuel + 1) s = loopThenFinish fuel t := by
  rw [loopThenFinish, tokenLoop, if_pos ⟨hp, hc⟩, ht]
  rfl

/-- With no host move to come, a step in BODY before the end is a TOKEN step. -/
theorem step_eq_tokenStep {s : State} (hh : s.host = []) (hp : s.phase = .body) (hc : s.cursor < s.bodyLen) :
    step s = tokenStep s := by
  rw [step_block hh, blockStep, hp]
  exact if_pos hc

/-- With no host move to come, a step in BODY at the end is a FINISH step. -/
theorem step_eq_finishStep {s : State} (hh : s.host = []) (hp : s.phase = .body) (hc : s.cursor = s.bodyLen) :
    step s = finishStep s := by
  rw [step_block hh, blockStep, hp]
  exact (if_neg hc.not_lt).trans (if_pos hc)

/-- FINISH ends the decode, and what steps are left change nothing. -/
theorem runSteps_finish_ends (fuel : Nat) {s : State} (hh : s.host = []) (hp : s.phase = .body)
    (hc : s.cursor = s.bodyLen) :
    ∃ t, runSteps (fuel + 1) s = .next t ∧ loopThenFinish fuel s = .next t ∧ DecodeEnded t := by
  obtain ⟨t, ht, hth, he⟩ : ∃ t, finishStep s = .next t ∧ t.host = s.host ∧ DecodeEnded t := by
    rcases finishStep_cases s with ⟨-, ht⟩ | ⟨-, ht⟩
    · exact ⟨_, ht, rfl, .inl rfl⟩
    · exact ⟨_, ht, rfl, decodeEnded_raise _ _⟩
  rw [runSteps_succ fuel ((step_eq_finishStep hh hp hc).trans ht), loopThenFinish_of_end fuel hp hc]
  exact ⟨t, runSteps_decodeEnded fuel (hth.trans hh) he, ht, he⟩

/-- From a state in BODY, with fuel for the bytes left, one step more than the fuel ends the decode where the loop of
R160 and FINISH end it: each TOKEN step raises or moves the cursor up (R161). -/
theorem runSteps_body_ends {fuel : Nat} {s : State} (hh : s.host = []) (hp : s.phase = .body)
    (hb : 14 + s.bodyLen ≤ s.inLen) (hc : s.cursor ≤ s.bodyLen) (hf : s.bodyLen ≤ s.cursor + fuel) :
    ∃ t, runSteps (fuel + 1) s = .next t ∧ loopThenFinish fuel s = .next t ∧ DecodeEnded t := by
  induction fuel generalizing s with
  | zero => exact runSteps_finish_ends 0 hh hp (by omega)
  | succ fuel ih =>
    rcases hc.eq_or_lt with hend | hlt
    · exact runSteps_finish_ends _ hh hp hend
    · obtain ⟨t, ht⟩ := tokenStep_answers hb hlt
      rw [runSteps_succ _ ((step_eq_tokenStep hh hp hlt).trans ht), loopThenFinish_succ fuel hp hlt ht]
      rcases tokenStep_next ht with ⟨e, -, rfl⟩ | ⟨i, hi, -, rfl⟩
      · have he := decodeEnded_raise e s
        exact ⟨_, runSteps_decodeEnded _ hh he, loopThenFinish_of_not_body fuel he.not_body, he⟩
      · have hpos := instr_length_pos i
        exact ih hh hp hb hi (show s.bodyLen ≤ s.cursor + i.length + fuel by omega)

/-- START and the HEADER step, when the host only starts the block. -/
theorem runSteps_start_header (k : Nat) {s t : State} (hh : s.host = [.start])
    (hp : ¬ (s.phase = .header ∨ s.phase = .body))
    (ht : headerStep Config.params (startStep (s.withHost [])) = .next t) :
    runSteps (k + 2) s = runSteps k t := by
  have hheader : step (startStep (s.withHost [])) = .next t := (step_block rfl).trans ht
  rw [runSteps_succ _ (step_start hh hp), runSteps_succ _ hheader]

theorem wholeDecode_of_header {p : Config.Params} {s t : State} (ht : headerStep p (startStep s) = .next t) :
    wholeDecode p s = loopThenFinish t.bodyLen t := by
  rw [wholeDecode, ht]
  rfl

/-- From a START, `BODY_LEN + 3` steps end the decode, and where the function of R160 does. -/
theorem runSteps_ends {s : State} (hh : s.host = [.start]) (hp : ¬ (s.phase = .header ∨ s.phase = .body)) :
    ∃ t, runSteps (s.inLen - 22 + 3) s = .next t ∧
      wholeDecode Config.params (s.withHost []) = .next t ∧ DecodeEnded t := by
  rcases headerStep_default_cases (startStep (s.withHost [])) with
    ⟨e, -, hst⟩ | ⟨w, h, ch, cs, hl, -, -, hst⟩ <;>
    rw [runSteps_start_header _ hh hp hst, wholeDecode_of_header hst]
  · have he := decodeEnded_raise e (startStep (s.withHost []))
    exact ⟨_, runSteps_decodeEnded _ rfl he, loopThenFinish_of_not_body _ he.not_body, he⟩
  · have hin : 14 + (s.inLen - 22) ≤ s.inLen := by
      change 22 ≤ s.inLen at hl
      omega
    exact runSteps_body_ends rfl rfl hin (Nat.zero_le _) (Nat.le_add_left _ _)

/-! ### A whole decode of a token stream -/

/-- The block is in BODY, with no host move to come, and the body bytes from the cursor to the end encode the tokens
`is`. -/
structure ReadsTokens (is : List Instr) (s : State) : Prop where
  host : s.host = []
  phase : s.phase = .body
  wellFormed : ∀ i ∈ is, i.WellFormed = true
  bodyLen : s.bodyLen = s.cursor + (is.flatMap encode).length
  bodyIn : 14 + s.bodyLen ≤ s.inLen
  bytes : s.inBytes (14 + s.cursor) (is.flatMap encode).length = is.flatMap encode

/-- With a token left to read, the next step runs it. -/
theorem ReadsTokens.step_eq_exec {i : Instr} {is : List Instr} {s : State} (h : ReadsTokens (i :: is) s) :
    step s = exec i s := by
  have hdec : decode (s.inBytes (14 + s.cursor) (s.bodyLen - s.cursor)) = .ok i (is.flatMap encode) := by
    rw [h.bodyLen, Nat.add_sub_cancel_left, h.bytes, List.flatMap_cons]
    exact decode_encode (h.wellFormed i List.mem_cons_self) _
  have hlt : s.cursor < s.bodyLen := by
    have hpos := instr_length_pos i
    rw [h.bodyLen, List.flatMap_cons, List.length_append, encode_length]
    omega
  rw [step_of_decode (.inl ⟨h.host, rfl⟩) h.phase hlt h.bodyIn hdec, ← h.host, withHost_self]

/-- A token that has been run leaves the tokens after it to be read. -/
theorem ReadsTokens.tail {i : Instr} {is : List Instr} {s : State} (h : ReadsTokens (i :: is) s) :
    ReadsTokens is (tokenEffects i s) where
  host := h.host
  phase := h.phase
  wellFormed j hj := h.wellFormed j (List.mem_cons_of_mem i hj)
  bodyLen := by
    have hlen := h.bodyLen
    rw [List.flatMap_cons, List.length_append, encode_length, ← Nat.add_assoc] at hlen
    exact hlen
  bodyIn := h.bodyIn
  bytes := by
    have hbytes := h.bytes
    rw [List.flatMap_cons] at hbytes
    have htail := (inBytes_eq_append hbytes).2
    rw [encode_length, Nat.add_assoc] at htail
    exact htail

/-- After START and HEADER on a container the tokens of its body are left to be read. -/
theorem readsTokens_acceptHeader {w h : BitVec 32} {ch cs : Byte} {is : List Instr} {s : State}
    (hw : ∀ i ∈ is, i.WellFormed = true) (hh : s.host = [])
    (hlen : s.inLen = 22 + (is.flatMap encode).length)
    (hin : s.inBytes 0 s.inLen = imageBytes w h ch cs (is.flatMap encode)) :
    ReadsTokens is (acceptHeader w h ch cs s) := by
  have hbodyLen : s.inLen - minInput = (is.flatMap encode).length := by
    rw [hlen]
    exact Nat.add_sub_cancel_left ..
  obtain ⟨-, -, -, -, -, hbody, -⟩ := inBytes_container hin
  refine ⟨hh, rfl, hw, hbodyLen.trans (Nat.zero_add _).symm, ?_, hbody⟩
  rw [acceptHeader_bodyLen, acceptHeader_inLen, hbodyLen]
  omega

/-- Reading tokens whose pixels are not exactly those still to come ends in code 7: the first token that overruns
raises it, or else FINISH does. -/
theorem ReadsTokens.ends_in_sizeMismatch {is : List Instr} {s : State} (h : ReadsTokens is s)
    (hne : s.outCount.toNat + (is.map pixelsProduced).sum ≠ s.pixelCount.toNat) :
    ∃ t, runSteps (is.length + 1) s = .next t ∧ t.phase = .error ∧ t.errCode = 7 ∧
      t.errExpected = s.pixelCount := by
  induction is generalizing s with
  | nil =>
    have hcount : s.outCount ≠ s.pixelCount := fun he => hne (by rw [he]; rfl)
    exact ⟨_, runSteps_succ 0 (step_finish_mismatch (.inl ⟨h.host, rfl⟩) h.phase h.bodyLen.symm hcount),
      rfl, rfl, rfl⟩
  | cons i is ih =>
    rcases exec_cases i s with ⟨-, he⟩ | ⟨hroom, he⟩ <;>
      rw [List.length_cons, runSteps_succ _ (h.step_eq_exec.trans he)]
    · rw [raise_sizeMismatch]
      exact ⟨_, runSteps_rest _ h.host (.inr (.inr rfl)), rfl, rfl, rfl⟩
    · refine ih h.tail ?_
      rw [tokenEffects_outCount_toNat hroom, Nat.add_assoc]
      exact hne

/-! ### The statements -/

/-- Settles O22: the effects of a token are one update of these five fields, which emits its pixels. -/
theorem tokensLeaveTheRestUnchanged : Obligations.TokensLeaveTheRestUnchanged := by
  intro i s t hst hroom
  obtain rfl : tokenEffects i s = t := by
    have hnext := (exec_of_room hroom).symm.trans hst
    injection hnext
  refine ⟨rfl, ?cache, ?prev, ?output, fun _ => rfl⟩
  case cache => rintro (⟨k, rfl⟩ | ⟨n, rfl⟩) <;> rfl
  case prev => rintro ⟨n, rfl⟩; rfl
  case output =>
    intro a ha
    exact (emits_effects hroom).others a (by rwa [Nat.mul_add])

/-- Settles O23: the capacity check fails; a count of at most `(2^32 - 1)^2` does not wrap with 64 pixels more. -/
theorem overrunRaisesSizeMismatch : Obligations.OverrunRaisesSizeMismatch := by
  intro i s hfull
  refine ⟨?_, fun hproduct hcounts => ?_⟩
  · rw [exec_eq, checked_of_full hfull, raise_sizeMismatch]
  · have hpixels := u32_mul_lt s.width s.height
    have hn := pixelsProduced_le i
    have hexact := outCount_add_toNat (c := s.outCount) (n := pixelsProduced i) (by omega)
    exact ⟨hexact, hexact ▸ hfull⟩

/-- Settles O24: the last of the pixels emitted stands at the position before the new count. -/
theorem prevIsLastPixelEmitted : Obligations.PrevIsLastPixelEmitted := by
  intro i s hroom
  have he := emits_effects hroom
  have hpos := pixelsProduced_pos i
  refine ⟨_, exec_of_room hroom, ?last, ?run⟩
  case last =>
    have hlast : (tokenEffects i s).outCount.toNat - 1 = s.outCount.toNat + (pixelsProduced i - 1) := by
      rw [he.count]
      omega
    rw [hlast]
    exact he.pixels _ (by omega)
  case run => rintro n rfl; rfl

/-- Settles O26: the decoder takes the bytes that the TOKEN step fetches. -/
theorem stepRunsTheDecodedToken : Obligations.StepRunsTheDecodedToken :=
  fun _ _ _ _ hm hp hc hb hd => step_of_decode hm hp hc hb hd

/-- Settles O27: the truncation check comes before the token, and one byte, the tag, is always there. -/
theorem truncatedTokenRaises : Obligations.TruncatedTokenRaises := by
  intro s hs hm hp hc hb htrunc
  have hmem := tokenLength_mem (s.inByte (14 + s.cursor))
  simp only [List.mem_cons, List.not_mem_nil, or_false] at hmem
  refine ⟨?_, by omega, by omega, by omega⟩
  rw [step_token hm hp hc hb, if_pos htrunc]
  rfl

/-- Settles O28: a token that passes the truncation check has the length its tag tells, and it raises or takes
effect. -/
theorem cursorMovesByTheTokenLength : Obligations.CursorMovesByTheTokenLength := by
  intro s t hs hm hp hc hb hst
  rcases step_token_cases hm hp hc hb with ⟨e, he⟩ | ⟨i, hi, hin, he⟩ <;> cases he.symm.trans hst
  · exact .inl ⟨rfl, rfl⟩
  · exact .inr ⟨hp, congrArg (s.cursor + ·) hi, tokenLength_mem _, hin⟩

/-- Settles O29: FINISH compares the two counts. -/
theorem finishEndsTheDecode : Obligations.FinishEndsTheDecode := by
  intro s hs hm hp hc
  exact ⟨fun hcount => (step_finish hm hp hc).trans (if_pos hcount), step_finish_mismatch hm hp hc⟩

/-- Settles O46: a step that raises is `raise` of an error with code 1 to 7. -/
theorem errorsArePrecise : Obligations.ErrorsArePrecise := by
  intro s t hs hm hp hst herr
  have hne : s.phase ≠ .error := by intro h; simp [h] at hp
  rw [step_of_blockMoves hm] at hst
  rcases blockStep_raises_or_not_error hst hne with ⟨e, hcode, rfl⟩ | hkept
  · refine ⟨rfl, ?_⟩
    simp only [List.mem_cons, List.not_mem_nil, or_false] at hcode
    rw [raise_errCode]
    omega
  · exact absurd herr hkept

/-- Settles O50: each TOKEN step raises or moves the cursor up, so the loop runs out of body bytes. -/
theorem everyDecodeEnds : Obligations.EveryDecodeEnds := by
  intro s hh hp
  obtain ⟨t, ht, -, he⟩ := runSteps_ends hh hp
  exact ⟨t, ht, he⟩

/-- Settles O51: after START and HEADER each step is the round of the loop that the function of R160 takes next, or its
FINISH. -/
theorem stepsComputeTheWholeDecode : Obligations.StepsComputeTheWholeDecode := by
  intro s hh hp
  obtain ⟨t, ht, hw, -⟩ := runSteps_ends hh hp
  exact ht.trans hw.symm

/-- Settles O54: the header of the container is accepted with the exact product, and from there the tokens' pixels
decide. -/
theorem wrongPixelCountIsAnError : Obligations.WrongPixelCountIsAnError := by
  intro w h ch cs is s hch hcs hw hh hp hlen hin hne
  rw [imageBytes_length] at hlen
  rw [streamPixels_length] at hne
  have hst : headerStep Config.params (startStep (s.withHost [])) = _ := headerStep_container hch hcs hlen hin
  have hreads : ReadsTokens is (acceptHeader w h ch cs (startStep (s.withHost []))) :=
    readsTokens_acceptHeader hw rfl hlen hin
  have hcount := acceptHeader_pixelCount_toNat w h ch cs (startStep (s.withHost []))
  obtain ⟨t, ht, hphase, hcode, hexpected⟩ := hreads.ends_in_sizeMismatch (by
    rw [hcount, acceptHeader_outCount, startStep_outCount]
    simpa using hne)
  exact ⟨t, (runSteps_start_header _ hh hp hst).trans ht, hphase, hcode, hexpected ▸ hcount⟩

end Sys2Proof.Machine
end

section
/-! PROOFS, family 43_literal_tokens.md: RGB and RGBA complete (O16, O17). Both are instances of one rule for the tokens
that insert their pixel, which serves DIFF and LUMA as well. -/

namespace Sys2Proof.Machine

/-! ### The tokens that insert their pixel (42_token_dispatch.md R150, R155) -/

/-- A token that inserts its pixel gives no other. -/
theorem pixelsProduced_of_inserts {i : Instr} (hi : insertsPixel i = true) : pixelsProduced i = 1 := by
  cases i with
  | index k => cases hi
  | run n => cases hi
  | _ => rfl

/-- An inserting token whose pixel fits completes: its pixel goes to `PREV`, the cache and `OUT`, and `CURSOR` passes
the token. -/
theorem exec_inserting_completes {i : Instr} {s : State} (hi : insertsPixel i = true)
    (hroom : s.outCount.toNat + 1 ≤ s.pixelCount.toNat) :
    ∃ t, exec i s = .next t ∧ t.prev = newPrev i s ∧ Inserts (newPrev i s) s t ∧ Emits 1 (newPrev i s) s t ∧
      t.cursor = s.cursor + i.length := by
  rw [← pixelsProduced_of_inserts hi] at hroom ⊢
  exact ⟨tokenEffects i s, exec_of_room hroom, rfl, inserts_effects hi, emits_effects hroom, rfl⟩

/-! ### The statements -/

/-- Settles O16: RGB inserts its pixel, whose alpha is that of `PREV` (43_literal_tokens.md R170), and is 4 bytes long. -/
theorem rgbCompletes : Obligations.RgbCompletes :=
  fun r g b _ hroom => exec_inserting_completes (i := .rgb r g b) rfl hroom

/-- Settles O17: RGBA inserts the pixel of its own four channels (R171) and is 5 bytes long. -/
theorem rgbaCompletes : Obligations.RgbaCompletes :=
  fun r g b a _ hroom => exec_inserting_completes (i := .rgba r g b a) rfl hroom

end Sys2Proof.Machine
end

section
/-! PROOFS, family 44_index_run_tokens.md: INDEX and RUN complete (O18, O21). Both are instances of one rule for the tokens
that leave the cache alone, the counterpart of `exec_inserting_completes`. -/

namespace Sys2Proof.Machine

/-! ### The tokens that leave the cache alone (42_token_dispatch.md R155) -/

/-- A token that inserts nothing and whose pixels fit completes: its pixel goes to `PREV` and, as often as the token
gives it, to `OUT`; the cache is as before, and `CURSOR` passes the token. -/
theorem exec_keeping_cache_completes {i : Instr} {s : State} (hi : insertsPixel i = false)
    (hroom : s.outCount.toNat + pixelsProduced i ≤ s.pixelCount.toNat) :
    ∃ t, exec i s = .next t ∧ t.prev = newPrev i s ∧ Emits (pixelsProduced i) (newPrev i s) s t ∧
      t.cache = s.cache ∧ t.cursor = s.cursor + i.length := by
  have hcache : (tokenEffects i s).cache = s.cache := if_neg (by simp [hi])
  exact ⟨tokenEffects i s, exec_of_room hroom, rfl, emits_effects hroom, hcache, rfl⟩

/-! ### The statements -/

/-- Settles O18: the slot with the number of INDEX's six bits is the one the token reads (44_index_run_tokens.md R180). -/
theorem indexCompletes : Obligations.IndexCompletes := by
  intro k s hroom
  obtain ⟨t, hexec, hprev, hemits, hcache, hcursor⟩ := exec_keeping_cache_completes (i := .index k) rfl hroom
  refine ⟨t, hexec, fun j hj => ?_, hcache, hcursor⟩
  obtain rfl : j = indexSlot k := Fin.ext hj
  exact ⟨hprev, hemits⟩

/-- Settles O21: RUN's pixel is `PREV` itself, payload plus 1 times (R181), so `PREV` stays as it is. -/
theorem runCompletes : Obligations.RunCompletes := by
  intro n s hroom
  obtain ⟨t, hexec, hprev, hemits, hcache, hcursor⟩ := exec_keeping_cache_completes (i := .run n) rfl hroom
  exact ⟨t, hexec, hemits, hprev, hcache, hcursor⟩

end Sys2Proof.Machine
end

section
/-! PROOFS, family 45_differential_tokens.md: the channel addition, and the tokens DIFF and LUMA that use it (O8, O9, O19,
O20, O25). DIFF and LUMA are instances of one rule for the tokens that add deltas to `PREV`. -/

namespace Sys2Proof.Machine

/-! ### The channel addition (45_differential_tokens.md R190, R191) -/

/-- The addition is modulo 256, with a result that is not negative (R190). -/
theorem addDelta_toNat (c : Byte) (d : Int) : ((addDelta c d).toNat : Int) = ((c.toNat : Int) + d) % 256 := by
  rw [addDelta, wrap8, BitVec.toNat_ofInt]
  exact Int.toNat_of_nonneg (Int.emod_nonneg _ (by decide))

/-- The two's complement form (R191 (a)). -/
theorem addDelta_eq_add_ofInt (c : Byte) (d : Int) : addDelta c d = c + BitVec.ofInt 8 d := by
  rw [addDelta, wrap8, BitVec.ofInt_add, BitVec.ofInt_natCast, BitVec.ofNat_toNat, BitVec.setWidth_eq]

/-- The signed form (R191 (b)): a byte is the low 8 bits of its signed reading too. -/
theorem addDelta_eq_ofInt_toInt_add (c : Byte) (d : Int) : addDelta c d = BitVec.ofInt 8 (c.toInt + d) := by
  rw [addDelta_eq_add_ofInt, BitVec.ofInt_add, BitVec.ofInt_toInt]

/-! ### The ranges of the deltas (30_encoding.md R90, R91) -/

theorem diffDelta_range (f : BitVec 2) : -2 ≤ diffDelta f ∧ diffDelta f ≤ 1 := by
  have hf := f.isLt
  unfold diffDelta
  omega

theorem lumaGreen_range (g : BitVec 6) : -32 ≤ lumaGreen g ∧ lumaGreen g ≤ 31 := by
  have hg := g.isLt
  unfold lumaGreen
  omega

theorem lumaDelta_range (g : BitVec 6) (f : BitVec 4) : -40 ≤ lumaDelta g f ∧ lumaDelta g f ≤ 38 := by
  have hgreen := lumaGreen_range g
  have hf := f.isLt
  unfold lumaDelta
  omega

/-! ### The tokens that add deltas to `PREV` (R192) -/

/-- An inserting token whose pixel is `PREV` with a delta on each colour channel, and whose pixel fits, completes: each
channel moves by its own delta, modulo 256, and alpha stays. -/
theorem exec_adding_deltas_completes {i : Instr} {s : State} {dr dg db : Int} (hi : insertsPixel i = true)
    (hpixel : newPrev i s = addDeltas s.prev dr dg db) (hroom : s.outCount.toNat + 1 ≤ s.pixelCount.toNat) :
    ∃ t, exec i s = .next t ∧
      (t.prev.r.toNat : Int) = ((s.prev.r.toNat : Int) + dr) % 256 ∧
      (t.prev.g.toNat : Int) = ((s.prev.g.toNat : Int) + dg) % 256 ∧
      (t.prev.b.toNat : Int) = ((s.prev.b.toNat : Int) + db) % 256 ∧
      t.prev.a = s.prev.a ∧ Inserts t.prev s t ∧ Emits 1 t.prev s t ∧ t.cursor = s.cursor + i.length := by
  obtain ⟨t, hexec, hprev, hinserts, hemits, hcursor⟩ := exec_inserting_completes hi hroom
  rw [← hprev] at hinserts hemits
  have hadded : t.prev = addDeltas s.prev dr dg db := hprev.trans hpixel
  refine ⟨t, hexec, ?red, ?green, ?blue, ?alpha, hinserts, hemits, hcursor⟩ <;> rw [hadded]
  case red => exact addDelta_toNat s.prev.r dr
  case green => exact addDelta_toNat s.prev.g dg
  case blue => exact addDelta_toNat s.prev.b db
  case alpha => rfl

/-! ### DIFF as LUMA (R194, R195) -/

/-- Two inserting tokens that give the same pixel differ in the cursor alone. -/
theorem tokenEffects_of_newPrev_eq {i j : Instr} {s : State} (hi : insertsPixel i = true)
    (hj : insertsPixel j = true) (hpixel : newPrev i s = newPrev j s) :
    tokenEffects j s = { tokenEffects i s with cursor := s.cursor + j.length } := by
  simp only [tokenEffects, newCache, pixelsProduced_of_inserts hi, pixelsProduced_of_inserts hj, hi, hj, hpixel]

/-- Every DIFF delta is a LUMA green delta. -/
theorem exists_lumaGreen_eq (f : BitVec 2) : ∃ g : BitVec 6, lumaGreen g = diffDelta f := by
  have hf := diffDelta_range f
  exact exists_biased_eq (bias := 32) (by omega) (by omega)

/-- Two DIFF deltas differ by at most 3, so a nibble that is biased by 8 takes the one to the other. -/
theorem exists_lumaDelta_eq {g : BitVec 6} {fg : BitVec 2} (hg : lumaGreen g = diffDelta fg) (f : BitVec 2) :
    ∃ n : BitVec 4, lumaDelta g n = diffDelta f := by
  have hfg := diffDelta_range fg
  have hf := diffDelta_range f
  obtain ⟨n, hn⟩ := exists_biased_eq (w := 4) (bias := 8) (d := diffDelta f - diffDelta fg) (by omega) (by omega)
  exact ⟨n, by rw [lumaDelta_eq, hg]; omega⟩

/-- For every DIFF there is a LUMA that gives the same pixel from every `PREV`. -/
theorem exists_lumaPixel_eq (fr fg fb : BitVec 2) :
    ∃ (g : BitVec 6) (r b : BitVec 4), ∀ p : Pixel, diffPixel p fr fg fb = lumaPixel p g r b := by
  obtain ⟨g, hg⟩ := exists_lumaGreen_eq fg
  obtain ⟨r, hr⟩ := exists_lumaDelta_eq hg fr
  obtain ⟨b, hb⟩ := exists_lumaDelta_eq hg fb
  exact ⟨g, r, b, fun p => by rw [diffPixel, lumaPixel, hr, hg, hb]⟩

/-! ### The statements -/

/-- Settles O8: a channel is a byte, the integer sum modulo 256. -/
theorem channelAdditionIsModulo256 : Obligations.ChannelAdditionIsModulo256 := addDelta_toNat

/-- Settles O9: both forms are congruent to the sum modulo 256; a field's range with its bias taken off is the delta's. -/
theorem channelAdditionEquivalentForms : Obligations.ChannelAdditionEquivalentForms :=
  ⟨fun c d => ⟨addDelta_eq_add_ofInt c d, addDelta_eq_ofInt_toInt_add c d⟩, diffDelta_range, lumaGreen_range,
    lumaDelta_range⟩

/-- Settles O19: DIFF adds its three fields, each biased by 2 (R194), and is 1 byte long. -/
theorem diffCompletes : Obligations.DiffCompletes :=
  fun r g b _ hroom => exec_adding_deltas_completes (i := .diff r g b) rfl rfl hroom

/-- Settles O20: LUMA adds the green delta, and red and blue deltas relative to it (R195), and is 2 bytes long. -/
theorem lumaCompletes : Obligations.LumaCompletes :=
  fun g r b _ hroom => exec_adding_deltas_completes (i := .luma g r b) rfl rfl hroom

/-- Settles O25: the LUMA that gives the DIFF's pixel, one byte longer. -/
theorem lumaCoversDiff : Obligations.LumaCoversDiff := by
  intro fr fg fb
  obtain ⟨g, r, b, hpixel⟩ := exists_lumaPixel_eq fr fg fb
  refine ⟨g, r, b, fun s hroom => ⟨tokenEffects (.diff fr fg fb) s, exec_of_room hroom, ?_⟩⟩
  rw [exec_of_room (i := .luma g r b) hroom]
  exact congrArg _ (tokenEffects_of_newPrev_eq rfl rfl (hpixel s.prev))

end Sys2Proof.Machine
end

section
/-! PROOFS, family 46_output_packing.md: the packing of pixels into bytes, the result, and a decode that reproduces its
stream (O48, O49, O53). The output is followed as a sequence of pixels: a token appends its pixels to it
(`Emits.outPixels`), so by induction over the stream it ends as the stream's pixels; `result_of_done` turns it into
bytes at the end. -/

namespace Sys2Proof.Machine

/-! ### Pixels as bytes and back (46_output_packing.md R205 to R209) -/

theorem pixelsToBytes_cons (p : Pixel) (ps : List Pixel) :
    pixelsToBytes (p :: ps) = p.r :: p.g :: p.b :: p.a :: pixelsToBytes ps := rfl

theorem pixelsToBytes_length (ps : List Pixel) : (pixelsToBytes ps).length = 4 * ps.length := by
  simp [pixelsToBytes, List.length_flatMap, Nat.mul_comm]

theorem bytesToPixels_pixelsToBytes (ps : List Pixel) : bytesToPixels (pixelsToBytes ps) = some ps := by
  induction ps with
  | nil => rfl
  | cons p ps ih => rw [pixelsToBytes_cons, bytesToPixels, ih, Option.map_some]

/-- Bytes that have a pixel reading are the bytes of that reading. -/
theorem pixelsToBytes_of_bytesToPixels {bs : List Byte} {ps : List Pixel} (h : bytesToPixels bs = some ps) :
    pixelsToBytes ps = bs := by
  induction bs using bytesToPixels.induct generalizing ps with
  | case1 => cases h; rfl
  | case2 r g b a bs ih =>
    obtain ⟨qs, hqs, rfl⟩ := Option.map_eq_some_iff.1 h
    rw [pixelsToBytes_cons, ih hqs]
  | case3 bs hnil hfour =>
    rw [bytesToPixels] at h
    · cases h
    · exact hnil
    · exact hfour

/-- Bytes in fours are the bytes of some pixels. -/
theorem exists_pixelsToBytes_eq {bs : List Byte} (h : bs.length % 4 = 0) : ∃ ps, pixelsToBytes ps = bs := by
  induction bs using bytesToPixels.induct with
  | case1 => exact ⟨[], rfl⟩
  | case2 r g b a bs ih =>
    simp only [List.length_cons] at h
    obtain ⟨ps, rfl⟩ := ih (by omega)
    exact ⟨⟨r, g, b, a⟩ :: ps, rfl⟩
  | case3 bs hnil hfour =>
    match bs with
    | [] => exact absurd rfl hnil
    | [_] | [_, _] | [_, _, _] => cases h
    | r :: g :: b :: a :: bs => exact absurd rfl (hfour r g b a bs)

/-! ### The output as bytes and as pixels (R205, R206, R211) -/

/-- The first `n` pixels of `OUT`. -/
def State.outPixels (s : State) (n : Nat) : List Pixel := (List.range n).map s.outPixel

@[simp] theorem outBytes_length (s : State) (n : Nat) : (s.outBytes n).length = n := by
  simp [State.outBytes]

theorem outBytes_getElem? (s : State) {n a : Nat} (h : a < n) : (s.outBytes n)[a]? = some (s.outByte a) := by
  simp [State.outBytes, h]

theorem outPixels_succ (s : State) (n : Nat) : s.outPixels (n + 1) = s.outPixels n ++ [s.outPixel n] := by
  simp [State.outPixels, List.range_succ]

/-- Four bytes of `OUT` for each pixel. -/
theorem outBytes_eq_pixelsToBytes (s : State) (n : Nat) :
    s.outBytes (4 * n) = pixelsToBytes (s.outPixels n) := by
  induction n with
  | zero => rfl
  | succ n ih =>
    have hbytes : s.outBytes (4 * n + 4) = s.outBytes (4 * n) ++ pixelBytes (s.outPixel n) := by
      simp [State.outBytes, List.range_succ, pixelBytes, State.outPixel]
    rw [Nat.mul_succ, hbytes, ih, outPixels_succ, pixelsToBytes, pixelsToBytes, List.flatMap_append,
      List.flatMap_singleton]

theorem result_of_done {s : State} (h : s.phase = .done) :
    s.result = some (pixelsToBytes (s.outPixels s.pixelCount.toNat)) := by
  rw [State.result, if_pos h, outBytes_eq_pixelsToBytes]

/-- The pixels emitted stand after those that were there. -/
theorem Emits.outPixels {n : Nat} {p : Pixel} {s t : State} (h : Emits n p s t) :
    t.outPixels t.outCount.toNat = s.outPixels s.outCount.toNat ++ List.replicate n p := by
  have hkept : ∀ k ∈ List.range s.outCount.toNat, t.outPixel k = s.outPixel k := by
    intro k hk
    rw [List.mem_range] at hk
    have hbyte : ∀ a, a < 4 * s.outCount.toNat → t.outByte a = s.outByte a := fun a ha => h.others a (.inl ha)
    simp only [State.outPixel]
    rw [hbyte _ (by omega), hbyte _ (by omega), hbyte _ (by omega), hbyte _ (by omega)]
  have hnew : ∀ k ∈ List.range n, t.outPixel (s.outCount.toNat + k) = p :=
    fun k hk => h.pixels k (List.mem_range.1 hk)
  rw [h.count, State.outPixels, State.outPixels, List.range_add, List.map_append, List.map_map,
    List.map_congr_left hkept]
  exact congrArg _ (List.eq_replicate_iff.2 ⟨by simp, by simpa using hnew⟩)

/-! ### A decode whose pixels are as many as declared (R211, 42_token_dispatch.md R160) -/

/-- The four header registers are the same. -/
def SameHeader (s t : State) : Prop :=
  t.width = s.width ∧ t.height = s.height ∧ t.channels = s.channels ∧ t.colorspace = s.colorspace

/-- The cache that START leaves is the one of the specification of a stream. -/
theorem cacheGet_cacheInit : cacheGet cacheInit = firstCache := by
  funext k
  rw [cacheGet_init, firstCache]
  simp only [eq_comm]

/-- A stream's pixels, with the state that its first token leaves. -/
theorem streamPixels_cons (i : Instr) (is : List Instr) (s : State) :
    streamPixels s.prev (cacheGet s.cache) (i :: is) =
      List.replicate (pixelsProduced i) (newPrev i s) ++
        streamPixels (tokenEffects i s).prev (cacheGet (tokenEffects i s).cache) is := by
  rw [streamPixels, tokenPixels_last, cacheAfter_eq, tokenPixels_eq]
  rfl

/-- Reading tokens whose pixels are exactly those still to come ends in DONE, with their pixels appended to `OUT` and
the header registers as they were. -/
theorem ReadsTokens.ends_in_done {is : List Instr} {s : State} (h : ReadsTokens is s)
    (hcount : s.outCount.toNat + (streamPixels s.prev (cacheGet s.cache) is).length = s.pixelCount.toNat) :
    ∃ t, runSteps (is.length + 1) s = .next t ∧ t.phase = .done ∧ SameHeader s t ∧
      t.outPixels t.pixelCount.toNat =
        s.outPixels s.outCount.toNat ++ streamPixels s.prev (cacheGet s.cache) is := by
  induction is generalizing s with
  | nil =>
    have heq : s.outCount = s.pixelCount := BitVec.eq_of_toNat_eq hcount
    have hstep := (step_finish (.inl ⟨h.host, rfl⟩) h.phase h.bodyLen.symm).trans (if_pos heq)
    refine ⟨_, runSteps_succ 0 hstep, rfl, ⟨rfl, rfl, rfl, rfl⟩, ?_⟩
    rw [streamPixels, List.append_nil, heq]
    rfl
  | cons i is ih =>
    rw [streamPixels_cons, List.length_append, List.length_replicate] at hcount
    have hroom : s.outCount.toNat + pixelsProduced i ≤ s.pixelCount.toNat := by omega
    obtain ⟨t, ht, hdone, hheader, hout⟩ := ih h.tail (by
      rw [tokenEffects_outCount_toNat hroom, Nat.add_assoc]
      exact hcount)
    refine ⟨t, (runSteps_succ _ (h.step_eq_exec.trans (exec_of_room hroom))).trans ht, hdone, hheader, ?_⟩
    rw [hout, (emits_effects hroom).outPixels, List.append_assoc, streamPixels_cons]

/-! ### The statements -/

/-- Settles O48: a byte of the result is the byte of `OUT` at its address. -/
theorem resultLayout : Obligations.ResultLayout := by
  intro s
  refine ⟨fun hp => if_neg hp, fun hp => ⟨_, if_pos hp, outBytes_length s _, fun i hi => ⟨?_, ?_, ?_, ?_⟩⟩⟩ <;>
    exact outBytes_getElem? s (by omega)

/-- Settles O49: a pixel reading is unique, and there is one exactly for the bytes of pixels, which come in fours. -/
theorem packingRoundTrip : Obligations.PackingRoundTrip := by
  refine ⟨fun ps => ⟨bytesToPixels_pixelsToBytes ps, pixelsToBytes_length ps⟩, fun bs h => ?fours, fun bs h => ?others⟩
  case fours =>
    obtain ⟨ps, rfl⟩ := exists_pixelsToBytes_eq h
    exact ⟨ps, bytesToPixels_pixelsToBytes ps, rfl⟩
  case others =>
    refine Option.eq_none_iff_forall_ne_some.2 fun ps hps => h ?_
    rw [← pixelsToBytes_of_bytesToPixels hps, pixelsToBytes_length, Nat.mul_mod_right]

/-- Settles O53: START and HEADER leave the first state of the stream's specification, and from there each token
appends its pixels. -/
theorem decodeReproducesTheStream : Obligations.DecodeReproducesTheStream := by
  intro w h ch cs is s hch hcs hw hh hp hlen hin hcount
  rw [imageBytes_length] at hlen
  have hst : headerStep Config.params (startStep (s.withHost [])) = _ := headerStep_container hch hcs hlen hin
  have hreads : ReadsTokens is (acceptHeader w h ch cs (startStep (s.withHost []))) :=
    readsTokens_acceptHeader hw rfl hlen hin
  have hpixels := acceptHeader_pixelCount_toNat w h ch cs (startStep (s.withHost []))
  rw [← cacheGet_cacheInit] at hcount ⊢
  obtain ⟨t, ht, hdone, ⟨hwidth, hheight, hchannels, hcolorspace⟩, hout⟩ :=
    hreads.ends_in_done ((Nat.zero_add _).trans (hcount.trans hpixels.symm))
  refine ⟨t, (runSteps_start_header _ hh hp hst).trans ht, hdone, ?result, hwidth, hheight, hchannels, hcolorspace⟩
  rw [result_of_done hdone, hout]
  rfl

end Sys2Proof.Machine
end

section
/-! PROOFS, family 60_exceptions.md: what raises and what START leaves, no fault in a run, what leaves ERROR, and that
nothing of an earlier decode influences a later one (O14, O15, O34, O43, O47, O52). The last is a simulation:
`SameDecode` is kept by every step of the block, one lemma per step, each following the step's own definition, so
that a stop on one side is the same stop on the other and no invariant is needed. -/

namespace Sys2Proof.Machine

/-! ### Two decodes at the same point (60_exceptions.md R241) -/

section
variable {s t : State} (h : SameDecode s t)
include h

/-- Only the memories and the reset number may differ. -/
theorem SameDecode.exists_memories :
    ∃ m o r, t = { s with inMem := m, outMem := o, resets := r } := ⟨_, _, _, h.registers⟩

theorem SameDecode.phase_eq : t.phase = s.phase := (congrArg State.phase h.registers :)
theorem SameDecode.cursor_eq : t.cursor = s.cursor := (congrArg State.cursor h.registers :)
theorem SameDecode.bodyLen_eq : t.bodyLen = s.bodyLen := (congrArg State.bodyLen h.registers :)
theorem SameDecode.inLen_eq : t.inLen = s.inLen := (congrArg State.inLen h.registers :)
theorem SameDecode.outCount_eq : t.outCount = s.outCount := (congrArg State.outCount h.registers :)
theorem SameDecode.pixelCount_eq : t.pixelCount = s.pixelCount := (congrArg State.pixelCount h.registers :)
theorem SameDecode.host_eq : t.host = s.host := (congrArg State.host h.registers :)

/-- The bytes read inside `IN_LEN` are the same. -/
theorem SameDecode.inBytes_eq {addr n : Nat} (hin : addr + n ≤ s.inLen) : s.inBytes addr n = t.inBytes addr n :=
  List.map_congr_left fun k hk => h.input (addr + k) (by rw [List.mem_range] at hk; omega)

/-! ### The updates that the block's steps are made of -/

theorem SameDecode.after_raise (e : DecodeError) : SameDecode (raise e s) (raise e t) :=
  ⟨congrArg (raise e) h.registers, h.input, h.written⟩

theorem SameDecode.after_acceptHeader (w ht : BitVec 32) (ch cs : Byte) :
    SameDecode (acceptHeader w ht ch cs s) (acceptHeader w ht ch cs t) :=
  ⟨congrArg (acceptHeader w ht ch cs) h.registers, h.input, h.written⟩

theorem SameDecode.after_finish : SameDecode { s with phase := .done } { t with phase := .done } :=
  ⟨congrArg (fun u : State => { u with phase := .done }) h.registers, h.input, h.written⟩

/-- A token whose pixels fit gives the same pixels on both sides, after the same output. -/
theorem SameDecode.after_token {i : Instr} (hroom : s.outCount.toNat + pixelsProduced i ≤ s.pixelCount.toNat) :
    SameDecode (tokenEffects i s) (tokenEffects i t) := by
  obtain ⟨m, o, r, rfl⟩ := h.exists_memories
  refine ⟨rfl, h.input, fun a ha => ?written⟩
  rw [tokenEffects_outCount_toNat hroom] at ha
  rw [tokenEffects_read hroom, tokenEffects_read (s := { s with inMem := m, outMem := o, resets := r }) hroom]
  by_cases hnew : 4 * s.outCount.toNat ≤ a ∧ a < 4 * (s.outCount.toNat + pixelsProduced i)
  · rw [if_pos hnew, if_pos hnew]
    rfl
  · rw [if_neg hnew, if_neg hnew]
    exact h.written a (by omega)

end

/-! ### The block's steps on both sides -/

/-- Two related outcomes, taken apart. -/
theorem outcomeRel_cases {R : State → State → Prop} {a b : Host.Outcome State Fault Refusal}
    (h : OutcomeRel R a b) :
    (∃ s t, a = .next s ∧ b = .next t ∧ R s t) ∨ (∃ r, a = .fault r ∧ b = .fault r) ∨
      (∃ r, a = .refused r ∧ b = .refused r) := by
  match a, b, h with
  | .next s, .next t, h => exact .inl ⟨s, t, rfl, rfl, h⟩
  | .fault r, .fault _, rfl => exact .inr (.inl ⟨r, rfl, rfl⟩)
  | .refused r, .refused _, rfl => exact .inr (.inr ⟨r, rfl, rfl⟩)

/-- Both sides take the same branch. -/
theorem outcomeRel_ite {R : State → State → Prop} {c : Prop} [Decidable c]
    {a a' b b' : Host.Outcome State Fault Refusal} (ha : OutcomeRel R a a') (hb : OutcomeRel R b b') :
    OutcomeRel R (if c then a else b) (if c then a' else b') := by
  by_cases hc : c
  · rwa [if_pos hc, if_pos hc]
  · rwa [if_neg hc, if_neg hc]

section
variable {s t : State} (h : SameDecode s t)
include h

/-- A read faults on both sides or hands the same bytes on. -/
theorem SameDecode.outcomeRel_readIn (addr n : Nat) {j k : List Byte → Host.Outcome State Fault Refusal}
    (hjk : ∀ bs, OutcomeRel SameDecode (j bs) (k bs)) :
    OutcomeRel SameDecode (readIn s addr n j) (readIn t addr n k) := by
  by_cases hin : addr + n ≤ s.inLen
  · rw [readIn_of_le hin, readIn_of_le (h.inLen_eq ▸ hin), h.inBytes_eq hin]
    exact hjk _
  · rw [readIn, readIn, h.inLen_eq, if_neg hin, if_neg hin]
    rfl

theorem SameDecode.outcomeRel_exec (i : Instr) : OutcomeRel SameDecode (exec i s) (exec i t) := by
  rw [exec_eq, exec_eq]
  rcases checked_cases (pixelsProduced i) (tokenEffects i) s with ⟨hfull, he⟩ | ⟨hroom, he⟩ <;> rw [he]
  · rw [checked_of_full (by rwa [h.pixelCount_eq, h.outCount_eq]), h.pixelCount_eq, h.outCount_eq]
    exact h.after_raise _
  · rw [checked_of_room (by rwa [h.pixelCount_eq, h.outCount_eq])]
    exact h.after_token hroom

theorem SameDecode.outcomeRel_headerStep (p : Config.Params) :
    OutcomeRel SameDecode (headerStep p s) (headerStep p t) := by
  rw [headerStep, headerStep, h.inLen_eq]
  refine outcomeRel_ite (h.after_raise _) (h.outcomeRel_readIn _ _ fun _ => ?magic)
  refine outcomeRel_ite (h.after_raise _) (h.outcomeRel_readIn _ _ fun _ => ?trailer)
  refine outcomeRel_ite (h.after_raise _) (h.outcomeRel_readIn _ _ fun _ =>
    h.outcomeRel_readIn _ _ fun _ => h.outcomeRel_readIn _ _ fun _ => h.outcomeRel_readIn _ _ fun _ => ?fields)
  exact outcomeRel_ite (h.after_raise _) (outcomeRel_ite (h.after_raise _)
    (outcomeRel_ite (h.after_raise _) (h.after_acceptHeader _ _ _ _)))

theorem SameDecode.outcomeRel_tokenStep : OutcomeRel SameDecode (tokenStep s) (tokenStep t) := by
  rw [tokenStep, tokenStep, h.cursor_eq, h.bodyLen_eq]
  exact h.outcomeRel_readIn _ _ fun _ => outcomeRel_ite (h.after_raise _)
    (h.outcomeRel_readIn _ _ fun _ => h.outcomeRel_exec _)

theorem SameDecode.outcomeRel_finishStep : OutcomeRel SameDecode (finishStep s) (finishStep t) := by
  obtain ⟨m, o, r, rfl⟩ := h.exists_memories
  rw [finishStep, finishStep]
  exact outcomeRel_ite h.after_finish (h.after_raise _)

theorem SameDecode.outcomeRel_blockStep (p : Config.Params) :
    OutcomeRel SameDecode (blockStep p s) (blockStep p t) := by
  rw [blockStep, blockStep, h.phase_eq, h.cursor_eq, h.bodyLen_eq]
  cases s.phase with
  | idle | done | error => exact h
  | header => exact h.outcomeRel_headerStep p
  | body => exact outcomeRel_ite h.outcomeRel_tokenStep (outcomeRel_ite h.outcomeRel_finishStep rfl)

end

/-- The block's own step leaves the host's moves to come as they are. -/
theorem blockStep_host {p : Config.Params} {s t : State} (h : blockStep p s = .next t) : t.host = s.host := by
  rcases blockStep_next h with ⟨-, rfl⟩ | ⟨-, hst⟩ | ⟨-, -, hst⟩ | ⟨-, -, hst⟩
  · rfl
  · rcases headerStep_cases p s with ⟨e, -, he⟩ | ⟨w, ht, ch, cs, -, -, -, -, he⟩ <;> cases he.symm.trans hst <;> rfl
  · rcases tokenStep_next hst with ⟨e, -, rfl⟩ | ⟨i, -, -, rfl⟩ <;> rfl
  · rcases finishStep_cases s with ⟨-, he⟩ | ⟨-, he⟩ <;> cases he.symm.trans hst <;> rfl

/-- With no host move to come, any number of steps leads to the same point of the decode on both sides. -/
theorem SameDecode.outcomeRel_runSteps (k : Nat) {s t : State} (h : SameDecode s t) (hh : s.host = []) :
    OutcomeRel SameDecode (runSteps k s) (runSteps k t) := by
  induction k generalizing s t with
  | zero => exact h
  | succ k ih =>
    rw [runSteps, runSteps, step_block hh, step_block (h.host_eq.trans hh)]
    rcases outcomeRel_cases (h.outcomeRel_blockStep Config.params) with
      ⟨s', t', hs, ht, h'⟩ | ⟨r, hs, ht⟩ | ⟨r, hs, ht⟩ <;> rw [hs, ht]
    · exact ih h' ((blockStep_host hs).trans hh)
    · rfl
    · rfl

/-- START makes two blocks with the same input agree: every other register gets its initial value, and no output is
written yet. -/
theorem sameDecode_startStep {s t : State} (hhost : s.host = t.host) (hlen : s.inLen = t.inLen)
    (hin : ∀ a, a < s.inLen → s.inByte a = t.inByte a) : SameDecode (startStep s) (startStep t) where
  registers := by simp only [startStep, hhost, hlen]
  input := hin
  written a ha := absurd ha (Nat.not_lt_zero a)

/-! ### No fault in a run (60_exceptions.md R230) -/

/-- Under the invariant the block's own step answers a next state: in BODY the cursor is inside the body or at its
end, and the body is inside the input. -/
theorem blockStep_answers_of_inv {s : State} (h : Inv s) : ∃ t, blockStep Config.params s = .next t := by
  rw [blockStep]
  cases hp : s.phase with
  | idle | done | error => exact ⟨s, rfl⟩
  | header =>
    rcases headerStep_default_cases s with ⟨e, -, he⟩ | ⟨w, ht, ch, cs, -, -, -, he⟩ <;> exact ⟨_, he⟩
  | body =>
    have hbody := h.body hp
    rcases h.cursorIn.lt_or_eq with hlt | hend
    · obtain ⟨t, ht⟩ := tokenStep_answers (s := s) (by omega) hlt
      exact ⟨t, (if_pos hlt).trans ht⟩
    · have hfinish : ∃ t, finishStep s = .next t := by
        rcases finishStep_cases s with ⟨-, he⟩ | ⟨-, he⟩ <;> exact ⟨_, he⟩
      obtain ⟨t, ht⟩ := hfinish
      exact ⟨t, (if_neg hend.not_lt).trans ((if_pos hend).trans ht)⟩

/-- Of the host's moves only `wait` can fault, by the block's own step. -/
theorem hostStep_fault {p : Config.Params} {move : HostMove} {s : State} {r : Fault}
    (h : hostStep p move s = .fault r) : blockStep p s = .fault r := by
  cases move with
  | wait => exact h
  | writeIn _ _ | setInLen _ | start =>
    simp only [hostStep] at h
    split_ifs at h
  | reset => cases h

theorem blockStep_ne_fault_of_inv {s : State} (h : Inv s) (r : Fault) : blockStep Config.params s ≠ .fault r := by
  obtain ⟨t, ht⟩ := blockStep_answers_of_inv h
  rw [ht]
  nofun

/-! ### The statements -/

/-- Settles O52: START makes the two decodes agree, and the block's steps keep them at the same point. -/
theorem nothingCarriesOver : Obligations.NothingCarriesOver := by
  intro k s t hs ht hps hpt hlen hin
  rw [runSteps_succ k (step_start hs hps), runSteps_succ k (step_start ht hpt)]
  exact (sameDecode_startStep (s := s.withHost []) (t := t.withHost []) rfl hlen hin).outcomeRel_runSteps k rfl

/-- Settles O43: the block's own step answers, and no move of the host faults by itself. -/
theorem noFaultUnderTheInvariant : Obligations.NoFaultUnderTheInvariant := by
  intro s h
  refine ⟨fun r hr => ?fault, fun hs hm => ?answers⟩
  case fault =>
    cases hh : s.host with
    | nil => exact blockStep_ne_fault_of_inv h r (step_block hh ▸ hr)
    | cons move rest => exact blockStep_ne_fault_of_inv (h.withHost rest) r (hostStep_fault (step_of_host_cons hh ▸ hr))
  case answers =>
    rw [step_of_blockMoves hm]
    exact blockStep_answers_of_inv (h.withHost hs)

/-- Settles O47: in ERROR the block rests, and the host's writes reach only `IN` and `IN_LEN`. -/
theorem onlyStartAndResetLeaveError : Obligations.OnlyStartAndResetLeaveError := by
  intro s t hp hst hstart hreset
  have rests : ∀ {hs}, BlockMoves s hs → t = s.withHost hs := fun hm => by
    cases (step_rest hm (.inr (.inr hp))).symm.trans hst
    rfl
  cases hh : s.host with
  | nil =>
    rw [rests (.inl ⟨hh, rfl⟩)]
    exact ⟨hp, rfl, rfl, rfl, rfl, rfl, rfl⟩
  | cons move rest =>
    have hmove := hostStep_next (step_of_host_cons hh ▸ hst)
    cases move with
    | wait =>
      rw [rests (.inr hh)]
      exact ⟨hp, rfl, rfl, rfl, rfl, rfl, rfl⟩
    | writeIn _ _ | setInLen _ =>
      subst hmove
      exact ⟨hp, rfl, rfl, rfl, rfl, rfl, rfl⟩
    | start => exact absurd (by rw [hh]; rfl) hstart
    | reset => exact absurd (by rw [hh]; rfl) hreset

/-- Settles O14: these four fields are all that `raise` updates. -/
theorem raiseWritesOnlyErrorRegisters : Obligations.RaiseWritesOnlyErrorRegisters := fun _ _ => rfl

/-- Settles O15: one row of the table for each error; the magic and the trailer as numbers are 0x716F6966 and 1. -/
theorem errorTable : Obligations.ErrorTable := by
  refine ⟨?tooShort, ?badMagic, ?badTrailer, ?badChannels, ?badColorspace, ?truncated, ?sizeMismatch, ?capacity⟩ <;>
    intros <;> exact ⟨rfl, rfl, rfl⟩

/-- Settles O34: the three phases are not busy, so START is not refused. -/
theorem startInitialisesTheDecode : Obligations.StartInitialisesTheDecode := by
  intro s hs hh hp
  have hidle : ¬ (s.phase = .header ∨ s.phase = .body) := by
    rcases hp with hp | hp | hp <;> simp [hp]
  exact step_start hh hidle

end Sys2Proof.Machine
end

section
/-! PROOFS, family 70_reset_and_hazards.md: the host's writes of the input, the reset event, and the host's moves that are
refused (O35 to O37). Each move of the host has one rule for the step that takes it, and START and the two writes have
one more for a busy block. -/

namespace Sys2Proof.Machine

/-- With the default, unbounded `LEN_W` every length fits (00_scope.md R7). -/
theorem fitsLen_default (n : Nat) : fitsLen Config.params n = true := rfl

/-! ### One step for each move of the host -/

section
variable {s : State} {hs : List HostMove} {addr len : Nat} {bytes : List Byte}

/-- A write of `IN` that is not refused (70_reset_and_hazards.md R263, R265). -/
theorem step_writeIn (hh : s.host = .writeIn addr bytes :: hs) (hp : ¬ (s.phase = .header ∨ s.phase = .body)) :
    step s = .next { s.withHost hs with inMem := s.inMem.writeBytes addr bytes } :=
  (step_of_host_cons hh).trans ((if_neg (mt (busy_iff s).1 hp)).trans (if_pos (fitsLen_default _)))

/-- A write of `IN_LEN` that is not refused (R263, R265). -/
theorem step_setInLen (hh : s.host = .setInLen len :: hs) (hp : ¬ (s.phase = .header ∨ s.phase = .body)) :
    step s = .next { s.withHost hs with inLen := len } :=
  (step_of_host_cons hh).trans ((if_neg (mt (busy_iff s).1 hp)).trans (if_pos (fitsLen_default _)))

/-- A START while busy (93_implementation_defined.md U5). -/
theorem step_start_of_busy (hh : s.host = .start :: hs) (hp : s.phase = .header ∨ s.phase = .body) :
    step s = .refused .startWhileBusy :=
  (step_of_host_cons hh).trans (if_pos ((busy_iff s).2 hp))

/-- A write of `IN` while busy, whatever its length (U4). -/
theorem step_writeIn_of_busy (hh : s.host = .writeIn addr bytes :: hs) (hp : s.phase = .header ∨ s.phase = .body) :
    step s = .refused .hostWriteWhileBusy :=
  (step_of_host_cons hh).trans (if_pos ((busy_iff s).2 hp))

/-- A write of `IN_LEN` while busy, whatever the length (U4). -/
theorem step_setInLen_of_busy (hh : s.host = .setInLen len :: hs) (hp : s.phase = .header ∨ s.phase = .body) :
    step s = .refused .hostWriteWhileBusy :=
  (step_of_host_cons hh).trans (if_pos ((busy_iff s).2 hp))

/-- A reset is never refused (R260). -/
theorem step_reset (hh : s.host = .reset :: hs) : step s = .next (resetEvent Config.params (s.withHost hs)) :=
  step_of_host_cons hh

end

/-! ### The input after a write -/

/-- At a written address stands the byte of the list, at every other address the byte that stood there, a free value
included (20_memory.md R50; log entry 4). -/
theorem inByte_writeBytes (s : State) (addr : Nat) (bytes : List Byte) (a : Nat) :
    { s with inMem := s.inMem.writeBytes addr bytes }.inByte a =
      if addr ≤ a ∧ a < addr + bytes.length then bytes.getD (a - addr) 0 else s.inByte a := by
  rw [State.inByte, Memory.read_writeBytes]
  by_cases hin : addr ≤ a ∧ a < addr + bytes.length
  · have hlt : a - addr < bytes.length := by omega
    simp [hin, hlt]
  · rw [if_neg hin, if_neg hin, State.inByte]

/-! ### The statements -/

/-- Settles O36: outside a decode neither write is refused, and the bytes after the write of `IN` are those of
`inByte_writeBytes`. -/
theorem hostLoadsTheInput : Obligations.HostLoadsTheInput := by
  intro s hs hp
  refine ⟨fun addr bytes hh => ?writeIn, fun len hh => ?setInLen⟩
  case writeIn => exact ⟨_, step_writeIn hh hp, rfl, inByte_writeBytes (s.withHost hs) addr bytes⟩
  case setInLen => exact step_setInLen hh hp

/-- Settles O37: of the old state the reset event keeps only the host's later moves, and it counts the reset. -/
theorem resetEventRestoresRegisters : Obligations.ResetEventRestoresRegisters :=
  fun _ _ hh => ⟨_, step_reset hh, rfl⟩

/-- Settles O35: each of the three moves has one rule for a busy block and one for the other phases. -/
theorem hostBreachesAreRefused : Obligations.HostBreachesAreRefused := by
  intro s hs addr len bytes
  refine ⟨fun hp => ?busy, fun hp hmove => ?accepted⟩
  case busy =>
    exact ⟨fun hh => step_start_of_busy hh hp, fun hh => step_writeIn_of_busy hh hp,
      fun hh => step_setInLen_of_busy hh hp⟩
  case accepted =>
    rcases hmove with hstart | hwrite | hlen
    · exact ⟨_, step_start hstart hp⟩
    · exact ⟨_, step_writeIn hwrite hp⟩
    · exact ⟨_, step_setInLen hlen hp⟩

end Sys2Proof.Machine
end
